-- ==== Sys2Proof/Word.lean ====
section
/-! DEFINITION. The widths of the block (bytes, 32-bit words, 64-bit cell values), and the host port's vocabulary: a
transaction and a response (00_scope.md R9). -/

namespace Sys2Proof

/-- One byte lane of a bus transaction (R53). -/
abbrev Byte := BitVec 8

/-- A 32-bit register, command word or block offset (R26, R50, R80). -/
abbrev Word := BitVec 32

/-- The 64-bit value of a plane cell (R20). The block moves the bits and never interprets them (R12, R103). -/
abbrev Val := BitVec 64

/-- A host transaction (R9): `Read(addr, size)`, or `Write(addr, size, data)` with its data as the bytes at `addr`,
`addr + 1`, … in that order (R53). The size of a write is the number of its data bytes. -/
inductive Txn where
  | read (a : Word) (size : Nat)
  | write (a : Word) (data : List Byte)
deriving DecidableEq, Repr

/-- The response of a transaction (R9): `OKAY(data)`, the data as bytes in lane order (R53), none for a write; or `ERR`. -/
inductive Response where
  | okay (data : List Byte)
  | err
deriving DecidableEq, Repr

end Sys2Proof
end

