-- ==== Sys2Proof/Config.lean ====
section
/-! DEFINITION. The implementation parameters of 00_scope.md R6: the values this hardware takes, and the open ones as
constants without a body. -/

namespace Sys2Proof

/-- A one-dimensional lifting primitive: for each length `n` a function on sequences of `n` 64-bit values (R100). The
type says what R100 says of it: total, deterministic, a result of the same length, dependent on `n` and the sequence
alone. -/
abbrev Lifter := (n : Nat) → Vector Val n → Vector Val n

/-- The extent of a plane in columns and rows. The rules of 40_transform.md are written for any powers of two (R6, D3). -/
structure Geom where
  w : Nat
  h : Nat
deriving DecidableEq, Repr

namespace Config

/-- `LOG2W` (R6). -/
def log2W : Nat := 9

/-- `LOG2H` (R6). -/
def log2H : Nat := 9

/-- `PLANE_W` and `PLANE_H`: 512 by 512 (R6). -/
def geom : Geom := ⟨512, 512⟩

/-- The number of plane cells (R20): 512 × 512. -/
def cells : Nat := 262144

/-- `MAX_LEVELS` (R6). -/
def maxLevels : Nat := 3

/-- `MIN_LIFT_LEN` (R6). -/
def minLiftLen : Nat := 2

/-- `PLANE_OFFSET` (R6, R51). -/
def planeOffset : Nat := 0x00100000

/-- The first offset past the plane window (R51). -/
def planeEnd : Nat := 0x00300000

/-- The first offset past the register region (R51). -/
def regEnd : Nat := 0x14

/-- `ID_VALUE` (R6, R27). -/
def idValue : Word := 0x57443244

/-- What INFO reads (R28): LOG2W in bits 3:0, LOG2H in 7:4, MAXLEV in 11:8, the rest 0. -/
def infoValue : Word := BitVec.ofNat 32 (log2W + 16 * log2H + 256 * maxLevels)

/-- `LIFT_FWD` (R100): an open parameter. No proof can see a value of it. -/
opaque liftFwd : Lifter

/-- `LIFT_INV` (R100): an open parameter. No proof can see a value of it. -/
opaque liftInv : Lifter

/-- Whether two values are equal to within `TOL` (R102): the tolerance and the way the distance is measured are both
open. -/
opaque withinTol : Val → Val → Bool

/-- `BLOCK_BASE` (R6, R50): where the platform places the block. -/
opaque blockBase : Nat

end Config

/-- The platform address of a block offset (R50): offsets are relative to `BLOCK_BASE`. -/
def platformAddr (a : Word) : Nat := Config.blockBase + a.toNat

end Sys2Proof
end

