-- ==== Sys2Proof/Machine/State.lean ====
section
/-! DEFINITION. The machine's state, as plain data: everything 10_state.md gives the block, the model's fault mark (R175),
and the outside world (host, schedule, responses) as lists. -/

namespace Sys2Proof.Machine

/-- The two transform operations (R1, R35). -/
inductive Op where
  | decompose
  | reconstruct
deriving DecidableEq, Repr

/-- The sequencer state (R35): idle, or running an accepted command with its level count. -/
inductive Seq where
  | idle
  | run (op : Op) (levels : Nat)
deriving DecidableEq, Repr

/-- The agents that can move (R8). -/
inductive Agent where
  | host
  | sequencer
  | reset
deriving DecidableEq, Repr

/-- The STATUS register's fields (R30). Its reserved bits have no storage. -/
structure Status where
  busy : Bool
  done : Bool
  err : Bool
  errcode : BitVec 4
deriving DecidableEq, Repr

/-- The IRQ_EN register's fields (R32). Its reserved bits have no storage. -/
structure IrqEn where
  doneIe : Bool
  errIe : Bool
deriving DecidableEq, Repr

/-- The plane `P` (R20, R22): the written cells as pairs (linear index `e = r * PLANE_W + c`, 64-bit value), in one
canonical form, indexes strictly rising (log 1). A cell that is not listed is unwritten and has no value (log 2). -/
abbrev Memory := List (Nat × Val)

/-- Why a run stops. -/
inductive Fault where
  /-- R22, R111, R147, R175: a value of an unwritten cell is needed, and the model has none to give. Raised by PLANE_RD
  of an unwritten cell, and by DECOMPOSE and RECONSTRUCT with L ≥ 1 accepted while some cell is unwritten; also by the
  completion step in a state no run reaches (log 14). Safe: the hardware goes on with unspecified bits. -/
  | uninitRead
deriving DecidableEq, Repr

/-- Why an instruction has no meaning. -/
inductive Refusal where
  /-- The instruction is not modelled yet; raised by exec's arm alone. Safe. No arm of this model raises it. -/
  | notModelled (mnemonic : String)
deriving DecidableEq, Repr

/-- The state of the block and of its surroundings. `plane` (R20), `status` (R30), `irqEn` (R32), `seq` (R35), `lb` the
line buffer (R36), `held` the host transaction that waits while the block is busy (R37), `mark` the model's fault mark
(R175). The model's own fields: `queue`, the transactions the host is still to issue, oldest first (R60); `sched`, the
agents that are to move at the coming steps (R174); `responses`, what the host has been answered, oldest first (R9). -/
structure State where
  plane : Memory
  status : Status
  irqEn : IrqEn
  seq : Seq
  lb : List Val
  held : Option Txn
  mark : Option Fault
  queue : List Txn
  sched : List Agent
  responses : List Response
deriving DecidableEq, Repr

/-- The state right after reset (R39, R200). `lb` is unspecified there; it is empty here, DESIGN CHOICE (log 3, unsafe).
The model's own three lists start empty, DESIGN CHOICE (log 7, log 12). -/
def State.reset : State where
  plane := []
  status := ⟨false, false, false, 0⟩
  irqEn := ⟨false, false⟩
  seq := .idle
  lb := []
  held := none
  mark := none
  queue := []
  sched := []
  responses := []

/-- What one step of this machine answers. -/
abbrev Out := Host.Outcome State Fault Refusal

end Sys2Proof.Machine
end

