-- ==== Sys2Proof/Machine/Flags.lean ====
section
/-! DEFINITION. Every computation on the flags of STATUS and IRQ_EN (R30 to R34, R170, R171), and the interrupt line
(R176). -/

namespace Sys2Proof.Machine

/-- The error codes of R170. -/
def badOpcode : BitVec 4 := 1

/-- R170, code 2. -/
def badLevels : BitVec 4 := 2

/-- R170, code 3. -/
def cmdWhileBusy : BitVec 4 := 3

/-- What STATUS reads (R30, R144): ERRCODE in bits 7:4, bit 3 zero, ERR, DONE, BUSY in bits 2, 1, 0. -/
def Status.word (st : Status) : Word :=
  BitVec.setWidth 32
    ((((st.errcode ++ 0#1) ++ BitVec.ofBool st.err) ++ BitVec.ofBool st.done) ++ BitVec.ofBool st.busy)

/-- What IRQ_EN reads (R33, R145): ERR_IE in bit 1, DONE_IE in bit 0. -/
def IrqEn.word (ie : IrqEn) : Word := BitVec.setWidth 32 (BitVec.ofBool ie.errIe ++ BitVec.ofBool ie.doneIe)

/-- The write-1-to-clear of a STATUS write (R31): d[1] clears DONE, d[2] clears ERR and ERRCODE. -/
def Status.writeClear (d : Word) (st : Status) : Status :=
  { busy := st.busy
    done := if d.getLsbD 1 then false else st.done
    err := if d.getLsbD 2 then false else st.err
    errcode := if d.getLsbD 2 then 0 else st.errcode }

/-- An IRQ_EN write (R33): DONE_IE ← d[0], ERR_IE ← d[1]. -/
def IrqEn.ofWord (d : Word) : IrqEn := ⟨d.getLsbD 0, d.getLsbD 1⟩

/-- The flags after a rejection (R171): ERR ← 1, ERRCODE ← code, nothing else. -/
def Status.rejected (code : BitVec 4) (st : Status) : Status := { st with err := true, errcode := code }

/-- The flags after acceptance (R110): BUSY ← 1, DONE ← 0, nothing else. -/
def Status.accepted (st : Status) : Status := { st with busy := true, done := false }

/-- The flags after completion (R113): BUSY ← 0, DONE ← 1, nothing else. -/
def Status.completed (st : Status) : Status := { st with busy := false, done := true }

/-- The interrupt line (R176): level-sensitive, active high, a function of STATUS and IRQ_EN (R38). -/
def State.irq (s : State) : Bool :=
  (s.status.done && s.irqEn.doneIe) || (s.status.err && s.irqEn.errIe)

end Sys2Proof.Machine
end

