-- ==== Sys2Proof/Syntax.lean ====
section
/-! DEFINITION. The instructions: one constructor per row of spec/opcode_table.json. -/

namespace Sys2Proof

/-- The block's instructions: the three command words (format CMD32, R81, R83) and the twelve bus transactions (format
BUS, R87). `levels` is the LEVELS field of the command word, `d` the data of a write, `w` the command word a CMD write
delivers, `cell` the field W of the plane rows (offset bits 21:3). -/
inductive Instr where
  | nop (levels : BitVec 4)
  | decompose (levels : BitVec 4)
  | reconstruct (levels : BitVec 4)
  | rdId
  | wrId (d : Word)
  | rdInfo
  | wrInfo (d : Word)
  | rdCmd
  | wrCmd (w : Word)
  | rdStatus
  | wrStatus (d : Word)
  | rdIrqEn
  | wrIrqEn (d : Word)
  | planeRd (cell : BitVec 19)
  | planeWr (cell : BitVec 19) (d : Val)
deriving DecidableEq, Repr

end Sys2Proof
end

