-- ==== Sys2Proof/WellFormed.lean ====
section
/-! DEFINITION. Which instructions are well formed: every value of every field, but for the plane rows, whose field W is
legal in 0x20000..0x5FFFF only (opcode_table.json, R87). -/

namespace Sys2Proof

/-- The field W of a plane row names a cell of the plane window (R51, R87). -/
def planeFieldOk (cell : BitVec 19) : Bool :=
  decide (0x20000 ≤ cell.toNat) && decide (cell.toNat ≤ 0x5FFFF)

/-- Well-formed instructions. LEVELS 4..15 is well formed: the word exists and is rejected when it runs (R82, R89). -/
def Instr.wf : Instr → Bool
  | .nop _ | .decompose _ | .reconstruct _ => true
  | .rdId | .rdInfo | .rdCmd | .rdStatus | .rdIrqEn => true
  | .wrId _ | .wrInfo _ | .wrCmd _ | .wrStatus _ | .wrIrqEn _ => true
  | .planeRd cell => planeFieldOk cell
  | .planeWr cell _ => planeFieldOk cell

end Sys2Proof
end

