-- ==== Sys2Proof/Decode.lean ====
section
/-! DEFINITION. Byte lanes; the command decoder (R81, R83) and the bus decoder (R51, R55, R87, R140); the encoder; the
assembler's words (R89); the reading of a number of the opcode table. -/

namespace Sys2Proof

/-! ### Byte lanes (R53) -/

/-- The `n` low byte lanes of a value, lane 0 (bits 7:0, the byte at the lowest offset) first (R53). -/
def lanes {m : Nat} (n : Nat) (v : BitVec m) : List Byte :=
  (List.range n).map fun j => v.extractLsb' (8 * j) 8

/-- The number that byte lanes carry, lane 0 least significant (R53). -/
def lanesNat : List Byte → Nat
  | [] => 0
  | b :: bs => b.toNat + 256 * lanesNat bs

/-- The 32-bit word of four lanes. -/
def wordOfLanes (bs : List Byte) : Word := BitVec.ofNat 32 (lanesNat bs)

/-- The 64-bit value of eight lanes. -/
def valOfLanes (bs : List Byte) : Val := BitVec.ofNat 64 (lanesNat bs)

/-! ### The two formats (R80) -/

/-- An encoded instruction: a command word, or a host transaction (R80). -/
inductive Encoded where
  | cmd32 (w : Word)
  | bus (t : Txn)
deriving DecidableEq, Repr

/-- Why an encoding is no instruction. `badOpcode`: an illegal command word (R85). The others: the three causes of a bus
error (R172). -/
inductive DecodeError where
  | badOpcode
  | wrongSize
  | misaligned
  | unmapped
deriving DecidableEq, Repr

/-! ### CMD32 (R81) -/

/-- Field OP, bits 1:0. -/
def cmdOp (w : Word) : BitVec 2 := w.extractLsb' 0 2

/-- Field RSV0, bits 3:2. -/
def cmdRsv0 (w : Word) : BitVec 2 := w.extractLsb' 2 2

/-- Field LEVELS, bits 7:4. -/
def cmdLevels (w : Word) : BitVec 4 := w.extractLsb' 4 4

/-- Field RSV1, bits 31:8. -/
def cmdRsv1 (w : Word) : BitVec 24 := w.extractLsb' 8 24

/-- What kind of command word a word is (R83). -/
inductive CmdKind where
  | nop
  | decompose
  | reconstruct
  | illegal
deriving DecidableEq, Repr

/-- R81, R85: a word with a reserved bit set, or OP = 3, is illegal. -/
def cmdKind (w : Word) : CmdKind :=
  if cmdRsv0 w = 0#2 ∧ cmdRsv1 w = 0#24 then
    if cmdOp w = 0#2 then .nop
    else if cmdOp w = 1#2 then .decompose
    else if cmdOp w = 2#2 then .reconstruct
    else .illegal
  else .illegal

/-- The command decoder (R83). -/
def decodeCmd (w : Word) : Except DecodeError Instr :=
  match cmdKind w with
  | .nop => .ok (.nop (cmdLevels w))
  | .decompose => .ok (.decompose (cmdLevels w))
  | .reconstruct => .ok (.reconstruct (cmdLevels w))
  | .illegal => .error .badOpcode

/-! ### BUS (R51, R55, R87) -/

/-- The offset lies in the register region (R51). -/
def inRegs (a : Word) : Bool := decide (a.toNat < Config.regEnd)

/-- The offset lies in the plane window (R51). -/
def inPlane (a : Word) : Bool :=
  decide (Config.planeOffset ≤ a.toNat) && decide (a.toNat < Config.planeEnd)

/-- Field W of a plane offset: bits 21:3 (opcode_table.json). -/
def planeField (a : Word) : BitVec 19 := a.extractLsb' 3 19

/-- The block offset of a plane row's field W. -/
def planeAddr (cell : BitVec 19) : Word := (0#10 ++ cell) ++ 0#3

/-- R55: whether a transaction of `size` bytes at `a` may be made there, before the row is looked up. `isReg` tells the
region of an access that may. -/
def checkAccess (a : Word) (size : Nat) : Except DecodeError Bool :=
  if inRegs a then
    if size ≠ 4 then .error .wrongSize
    else if a.toNat % 4 ≠ 0 then .error .misaligned
    else .ok true
  else if inPlane a then
    if size ≠ 8 then .error .wrongSize
    else if a.toNat % 8 ≠ 0 then .error .misaligned
    else .ok false
  else .error .unmapped

/-- The register read at an offset (R87). -/
def decodeRegRead (a : Word) : Except DecodeError Instr :=
  if a = 0x000 then .ok .rdId
  else if a = 0x004 then .ok .rdInfo
  else if a = 0x008 then .ok .rdCmd
  else if a = 0x00C then .ok .rdStatus
  else if a = 0x010 then .ok .rdIrqEn
  else .error .unmapped

/-- The register write at an offset (R87). -/
def decodeRegWrite (a : Word) (d : Word) : Except DecodeError Instr :=
  if a = 0x000 then .ok (.wrId d)
  else if a = 0x004 then .ok (.wrInfo d)
  else if a = 0x008 then .ok (.wrCmd d)
  else if a = 0x00C then .ok (.wrStatus d)
  else if a = 0x010 then .ok (.wrIrqEn d)
  else .error .unmapped

/-- The bus decoder: by direction, offset and size alone (R87, R140). -/
def decodeTxn : Txn → Except DecodeError Instr
  | .read a size =>
    match checkAccess a size with
    | .error e => .error e
    | .ok true => decodeRegRead a
    | .ok false => .ok (.planeRd (planeField a))
  | .write a data =>
    match checkAccess a data.length with
    | .error e => .error e
    | .ok true => decodeRegWrite a (wordOfLanes data)
    | .ok false => .ok (.planeWr (planeField a) (valOfLanes data))

/-- The decoder: total on every encoding of either format. -/
def decode : Encoded → Except DecodeError Instr
  | .cmd32 w => decodeCmd w
  | .bus t => decodeTxn t

/-! ### The encoder (R81, R87, R89) -/

/-- A command word from OP and LEVELS, the reserved fields 0 (R81). -/
def cmdWord (op : BitVec 2) (levels : BitVec 4) : Word := ((0#24 ++ levels) ++ 0#2) ++ op

/-- The encoding of an instruction. -/
def encode : Instr → Encoded
  | .nop l => .cmd32 (cmdWord 0#2 l)
  | .decompose l => .cmd32 (cmdWord 1#2 l)
  | .reconstruct l => .cmd32 (cmdWord 2#2 l)
  | .rdId => .bus (.read 0x000 4)
  | .wrId d => .bus (.write 0x000 (lanes 4 d))
  | .rdInfo => .bus (.read 0x004 4)
  | .wrInfo d => .bus (.write 0x004 (lanes 4 d))
  | .rdCmd => .bus (.read 0x008 4)
  | .wrCmd w => .bus (.write 0x008 (lanes 4 w))
  | .rdStatus => .bus (.read 0x00C 4)
  | .wrStatus d => .bus (.write 0x00C (lanes 4 d))
  | .rdIrqEn => .bus (.read 0x010 4)
  | .wrIrqEn d => .bus (.write 0x010 (lanes 4 d))
  | .planeRd cell => .bus (.read (planeAddr cell) 8)
  | .planeWr cell d => .bus (.write (planeAddr cell) (lanes 8 d))

/-- The transaction that carries an encoded instruction to the block: a command word travels in a 4-byte write to CMD
(R29, R80). -/
def Encoded.txn : Encoded → Txn
  | .cmd32 w => .write 0x008 (lanes 4 w)
  | .bus t => t

/-! ### Assembler words (R89) -/

/-- `NOP`. -/
def asmNop : Word := 0

/-- `DECOMPOSE #L`: refused outside 0..15, because the field cannot hold it (R89). -/
def asmDecompose (l : Nat) : Option Word :=
  if l ≤ 15 then some (BitVec.ofNat 32 (16 * l + 1)) else none

/-- `RECONSTRUCT #L`: refused outside 0..15 (R89). -/
def asmReconstruct (l : Nat) : Option Word :=
  if l ≤ 15 then some (BitVec.ofNat 32 (16 * l + 2)) else none

/-! ### The table's numbers -/

/-- What a bare 32-bit number of opcode_table.json encodes. The table's number of a BUS row is the offset alone: it says
neither the format nor the direction, so one number can be several rows'. DESIGN CHOICE (log 11, safe): the first row in
the table's order, the read of an offset before its write. -/
def tableEncoded (w : Word) : Encoded :=
  match decodeCmd w with
  | .ok _ => .cmd32 w
  | .error _ => .bus (.read w (if inPlane w then 8 else 4))

/-- The instruction the decoder reads from a number of the table (log 11). Every row of the table has 32 bits. -/
def decodeTableWord (_nbits w : Nat) : Option Instr :=
  if w < 2 ^ 32 then (decode (tableEncoded (BitVec.ofNat 32 w))).toOption else none

end Sys2Proof
end

