-- ==== Sys2Proof/Machine/Operands.lean ====
section
/-! DEFINITION. The operands: the LEVELS operand (R82), the cell a plane access names (R52), and the offset of a cell. -/

namespace Sys2Proof.Machine

/-- The LEVELS operand, zero-extended (R82). -/
def levelsOf (levels : BitVec 4) : Nat := levels.toNat

/-- The linear index of the cell that field W names: `e = W - 0x20000` (R52). -/
def cellIndex (cell : BitVec 19) : Nat := cell.toNat - 0x20000

/-- The row of a linear index (R52). -/
def rowOf (e : Nat) : Nat := e >>> Config.log2W

/-- The column of a linear index (R52). -/
def colOf (e : Nat) : Nat := e &&& (Config.geom.w - 1)

/-- The linear index of cell `(r, c)` of a plane of extent `g`: row-major (R20). -/
def index (g : Geom) (r c : Nat) : Nat := r * g.w + c

/-- The block offset of the cell with linear index `e` (R52). -/
def cellOffset (e : Nat) : Nat := Config.planeOffset + 8 * e

/-- The transaction of a plane read, as the port holds it (R37). -/
def planeReadTxn (cell : BitVec 19) : Txn := .read (planeAddr cell) 8

/-- The transaction of a plane write, as the port holds it (R37). -/
def planeWriteTxn (cell : BitVec 19) (d : Val) : Txn := .write (planeAddr cell) (lanes 8 d)

end Sys2Proof.Machine
end

