-- ==== Sys2Proof/Machine/Ops.lean ====
section
/-! DEFINITION. The named operations over the plane, the host port and the command acceptance; the reset event. The block
has no trap (R178): what an error does is `State.reject` (R171) or `State.busError` (R172), and the acknowledge in the
place of a return is `State.acknowledge` (R179). -/

namespace Sys2Proof.Machine

/-! ### The plane (R20 to R23) -/

/-- The value of a cell, `none` while it is unwritten (R22). -/
def Memory.read : Memory → Nat → Option Val
  | [], _ => none
  | (k, v) :: rest, e => if k = e then some v else Memory.read rest e

/-- Write a cell, keeping the indexes in rising order: the cell becomes written (R22). -/
def Memory.write : Memory → Nat → Val → Memory
  | [], e, v => [(e, v)]
  | (k, u) :: rest, e, v =>
    if e < k then (e, v) :: (k, u) :: rest
    else if e = k then (e, v) :: rest
    else (k, u) :: Memory.write rest e v

/-- The canonical form (log 1): indexes strictly rising, each a cell of a plane of `n` cells. -/
def Memory.wfIn (n : Nat) (m : Memory) : Bool :=
  decide ((m.map Prod.fst).Pairwise (· < ·)) && m.all fun p => decide (p.1 < n)

/-- The canonical form of this hardware's plane (R20). -/
def Memory.wf (m : Memory) : Bool := m.wfIn Config.cells

/-- A test holds of every number below a bound. -/
def allBelow (p : Nat → Bool) : Nat → Bool
  | 0 => true
  | n + 1 => p n && allBelow p n

/-- Every one of the first `n` cells is written. -/
def Memory.allWrittenIn (n : Nat) (m : Memory) : Bool := allBelow (fun e => (m.read e).isSome) n

/-- No plane cell is unwritten (R111). -/
def Memory.allWritten (m : Memory) : Bool := m.allWrittenIn Config.cells

/-- The byte of the plane window at a block offset, as a bus access would carry it (R52, R53): byte `a mod 8` of the
cell, little-endian. `none` where the offset is in no written cell. -/
def Memory.byteAt (m : Memory) (a : Word) : Option Byte :=
  if inPlane a then
    (m.read ((a.toNat - Config.planeOffset) >>> 3)).map fun v => v.extractLsb' (8 * (a.toNat % 8)) 8
  else none

/-! ### The host port (R9, R60, R140, R146, R172) -/

/-- The transaction completes with a response. -/
def State.respond (r : Response) (s : State) : State := { s with responses := s.responses ++ [r] }

/-- A read completes `OKAY` with the four lanes of a register's word. -/
def State.okayWord (w : Word) (s : State) : State := s.respond (.okay (lanes 4 w))

/-- A write completes `OKAY`: it carries no data back. -/
def State.okay (s : State) : State := s.respond (.okay [])

/-- `raise BusError()` (R172): response `ERR`, no other effect. -/
def State.busError (s : State) : State := s.respond .err

/-- A plane transaction taken while BUSY is held (R146): it stays with the port, and nothing else happens. -/
def State.hold (t : Txn) (s : State) : State := { s with held := some t }

/-! ### Commands (R110, R111, R171) -/

/-- `reject(code)` (R171). -/
def State.reject (code : BitVec 4) (s : State) : State := { s with status := s.status.rejected code }

/-- The acknowledge of an error or of a completion: the write-1-to-clear of STATUS (R31, R179). -/
def State.acknowledge (d : Word) (s : State) : State := { s with status := s.status.writeClear d }

/-- Acceptance (R110): SEQ ← RUN(op, L), BUSY ← 1, DONE ← 0. -/
def State.accept (op : Op) (levels : Nat) (s : State) : State :=
  { s with seq := .run op levels, status := s.status.accepted }

/-- R110 from its busy check on, for a legal DECOMPOSE or RECONSTRUCT word: CMD_WHILE_BUSY, then BAD_LEVELS, then the
check of R111 if L ≥ 1, then acceptance. The CMD write that carried the word completes `OKAY` (R110, R151; log 10). -/
def startTransform (op : Op) (levels : BitVec 4) (s : State) : Out :=
  if s.status.busy then .next (s.reject cmdWhileBusy).okay
  else if levelsOf levels > Config.maxLevels then .next (s.reject badLevels).okay
  else if decide (1 ≤ levelsOf levels) && !s.plane.allWritten then .fault .uninitRead
  else .next (s.accept op (levelsOf levels)).okay

/-- R110 for an illegal word: CMD_WHILE_BUSY while busy, BAD_OPCODE while idle (R85, R173). -/
def rejectIllegal (s : State) : Out :=
  if s.status.busy then .next (s.reject cmdWhileBusy).okay else .next (s.reject badOpcode).okay

/-! ### Reset (R200, R201, R202) -/

/-- The reset event, at any step: every piece of the block's state takes its reset value (R39); a held transaction
completes `ERR` (R201); the fault mark stays (R202). What the host is still to issue, what it has been answered and the
schedule are outside the block and stay (log 20). -/
def State.resetEvent (s : State) : State :=
  { State.reset with
    mark := s.mark
    queue := s.queue
    sched := s.sched
    responses := match s.held with
      | some _ => s.responses ++ [.err]
      | none => s.responses }

end Sys2Proof.Machine
end

