-- ==== Sys2Proof/Machine/Commands.lean ====
section
/-! DEFINITION. The meanings of the three command words (format CMD32): R112, R114, R115. A command word runs as the CMD
write that carries it, which completes `OKAY` (R110; log 10). -/

namespace Sys2Proof.Machine

/-- NOP (R115): nothing, whether idle or BUSY; LEVELS is ignored. -/
def execNop (_levels : BitVec 4) (s : State) : Out := .next s.okay

/-- DECOMPOSE #L (R112): acceptance or rejection by R110. Its effect on the plane is the completion step's (R113). -/
def execDecompose (levels : BitVec 4) (s : State) : Out := startTransform .decompose levels s

/-- RECONSTRUCT #L (R114): acceptance or rejection by R110. Its effect on the plane is the completion step's (R113). -/
def execReconstruct (levels : BitVec 4) (s : State) : Out := startTransform .reconstruct levels s

end Sys2Proof.Machine
end

