-- ==== Sys2Proof/Machine/PlaneAccess.lean ====
section
/-! DEFINITION. The meanings of the plane accesses: R146 to R148. A field W outside the window is an unmapped offset, a
bus error (opcode_table.json, R56; log 13). -/

namespace Sys2Proof.Machine

/-- PLANE_RD (R147). -/
def execPlaneRd (cell : BitVec 19) (s : State) : Out :=
  if planeFieldOk cell then
    if s.status.busy then .next (s.hold (planeReadTxn cell))
    else match s.plane.read (cellIndex cell) with
      | none => .fault .uninitRead
      | some v => .next (s.respond (.okay (lanes 8 v)))
  else .next s.busError

/-- PLANE_WR (R148). -/
def execPlaneWr (cell : BitVec 19) (d : Val) (s : State) : Out :=
  if planeFieldOk cell then
    if s.status.busy then .next (s.hold (planeWriteTxn cell d))
    else .next { s with plane := s.plane.write (cellIndex cell) d }.okay
  else .next s.busError

end Sys2Proof.Machine
end

