-- ==== Sys2Proof/Machine/RegReads.lean ====
section
/-! DEFINITION. The meanings of the register reads: R141 to R145. All are served while BUSY; none has a side effect (R58). -/

namespace Sys2Proof.Machine

/-- RD_ID (R141). -/
def execRdId (s : State) : Out := .next (s.okayWord Config.idValue)

/-- RD_INFO (R142). -/
def execRdInfo (s : State) : Out := .next (s.okayWord Config.infoValue)

/-- RD_CMD (R143): reads 0. -/
def execRdCmd (s : State) : Out := .next (s.okayWord 0)

/-- RD_STATUS (R144). -/
def execRdStatus (s : State) : Out := .next (s.okayWord s.status.word)

/-- RD_IRQ_EN (R145). -/
def execRdIrqEn (s : State) : Out := .next (s.okayWord s.irqEn.word)

end Sys2Proof.Machine
end

