-- ==== Sys2Proof/Machine/RegWrites.lean ====
section
/-! DEFINITION. The meanings of the register writes: R149 to R153. All are served while BUSY. -/

namespace Sys2Proof.Machine

/-- WR_ID (R149): the data is discarded. -/
def execWrId (_d : Word) (s : State) : Out := .next s.okay

/-- WR_INFO (R150): the data is discarded. -/
def execWrInfo (_d : Word) (s : State) : Out := .next s.okay

/-- WR_CMD (R151): the command word goes to the command decoder (R29), and what it decodes to runs (R110). -/
def execWrCmd (w : Word) (s : State) : Out :=
  match cmdKind w with
  | .nop => execNop (cmdLevels w) s
  | .decompose => execDecompose (cmdLevels w) s
  | .reconstruct => execReconstruct (cmdLevels w) s
  | .illegal => rejectIllegal s

/-- WR_STATUS (R152): write-1-to-clear (R31). -/
def execWrStatus (d : Word) (s : State) : Out := .next (s.acknowledge d).okay

/-- WR_IRQ_EN (R153, R33). -/
def execWrIrqEn (d : Word) (s : State) : Out := .next { s with irqEn := IrqEn.ofWord d }.okay

end Sys2Proof.Machine
end

