-- ==== Sys2Proof/Machine/Dispatch.lean ====
section
/-! DEFINITION. One arm per instruction: each a direct call of its meaning. -/

namespace Sys2Proof.Machine

def exec (i : Instr) (s : State) : Host.Outcome State Fault Refusal :=
  match i with
  | .nop levels => Sys2Proof.Machine.execNop levels s
  | .decompose levels => Sys2Proof.Machine.execDecompose levels s
  | .reconstruct levels => Sys2Proof.Machine.execReconstruct levels s
  | .rdId => Sys2Proof.Machine.execRdId s
  | .wrId d => Sys2Proof.Machine.execWrId d s
  | .rdInfo => Sys2Proof.Machine.execRdInfo s
  | .wrInfo d => Sys2Proof.Machine.execWrInfo d s
  | .rdCmd => Sys2Proof.Machine.execRdCmd s
  | .wrCmd w => Sys2Proof.Machine.execWrCmd w s
  | .rdStatus => Sys2Proof.Machine.execRdStatus s
  | .wrStatus d => Sys2Proof.Machine.execWrStatus d s
  | .rdIrqEn => Sys2Proof.Machine.execRdIrqEn s
  | .wrIrqEn d => Sys2Proof.Machine.execWrIrqEn d s
  | .planeRd cell => Sys2Proof.Machine.execPlaneRd cell s
  | .planeWr cell d => Sys2Proof.Machine.execPlaneWr cell d s

end Sys2Proof.Machine
end

