-- ==== Sys2Proof/Machine/Transform.lean ====
section
/-! DEFINITION. The transforms of 40_transform.md: gather, lift and scatter of a line, the row and column passes (R104,
R105), DEC and REC (R107, R108), and the sequencer's completion step (R113). They are written for any extent and any
lifter pair (R6, D3); the hardware's own are `Config.geom`, `Config.liftFwd` and `Config.liftInv`. -/

namespace Sys2Proof.Machine

/-- `Lift(dir, n, v)` (R11, R100), the length being that of the sequence. -/
def applyLifter (f : Lifter) (v : List Val) : List Val := (f v.length ⟨v.toArray, by simp⟩).toList

/-- What a command works on: the plane and the line buffer. -/
abbrev Work := Memory × List Val

/-- Read the cells of a line in order; `none` if one is unwritten. -/
def gather (m : Memory) (line : List Nat) : Option (List Val) := line.mapM m.read

/-- Write values to the cells of a line, in order. -/
def scatter (m : Memory) (line : List Nat) (vs : List Val) : Memory :=
  (line.zip vs).foldl (fun m p => m.write p.1 p.2) m

/-- One line of a pass (the loop body of R104 and R105): LB ← the line's cells, LB ← Lift(LB), the cells ← LB. The
line is read whole before any of its cells is written (R112). -/
def liftLine (f : Lifter) (w : Work) (line : List Nat) : Option Work :=
  match gather w.1 line with
  | none => none
  | some v => some (scatter w.1 line (applyLifter f v), applyLifter f v)

/-- Lift a list of lines, one after the other. -/
def liftLines (f : Lifter) (lines : List (List Nat)) (w : Work) : Option Work := lines.foldlM (liftLine f) w

/-- The active width of pass index `k` (R13, R104): `PLANE_W >> k`. -/
def activeW (g : Geom) (k : Nat) : Nat := g.w >>> k

/-- The active height of pass index `k` (R13, R104): `PLANE_H >> k`. -/
def activeH (g : Geom) (k : Nat) : Nat := g.h >>> k

/-- The cells of active row `r` of pass `k`: (r, 0) .. (r, wk-1). -/
def rowLine (g : Geom) (k r : Nat) : List Nat := (List.range (activeW g k)).map fun c => index g r c

/-- The cells of active column `c` of pass `k`: (0, c) .. (hk-1, c). -/
def colLine (g : Geom) (k c : Nat) : List Nat := (List.range (activeH g k)).map fun r => index g r c

/-- The lines of a row pass, in ascending order (R104, R106). -/
def rowLines (g : Geom) (k : Nat) : List (List Nat) := (List.range (activeH g k)).map (rowLine g k)

/-- The lines of a column pass, in ascending order (R105, R106). -/
def colLines (g : Geom) (k : Nat) : List (List Nat) := (List.range (activeW g k)).map (colLine g k)

/-- `RowPass(dir, k)` (R104). -/
def rowPass (f : Lifter) (g : Geom) (k : Nat) (w : Work) : Option Work := liftLines f (rowLines g k) w

/-- `ColPass(dir, k)` (R105). -/
def colPass (f : Lifter) (g : Geom) (k : Nat) (w : Work) : Option Work := liftLines f (colLines g k) w

/-- Pass index `k` of DECOMPOSE: rows before columns (R107). -/
def decPass (f : Lifter) (g : Geom) (w : Work) (k : Nat) : Option Work := (rowPass f g k w).bind (colPass f g k)

/-- Pass index `k` of RECONSTRUCT: columns before rows (R108). -/
def recPass (f : Lifter) (g : Geom) (w : Work) (k : Nat) : Option Work := (colPass f g k w).bind (rowPass f g k)

/-- `DEC(P, L)` (R107): pass indexes 0 .. L-1. -/
def decPlane (f : Lifter) (g : Geom) (l : Nat) (w : Work) : Option Work := (List.range l).foldlM (decPass f g) w

/-- `REC(P, L)` (R108): pass indexes L-1 down to 0. -/
def recPlane (f : Lifter) (g : Geom) (l : Nat) (w : Work) : Option Work := (List.range l).reverse.foldlM (recPass f g) w

/-- The lines DEC lifts, in order: what R109 counts. -/
def decLines (g : Geom) (l : Nat) : List (List Nat) :=
  (List.range l).flatMap fun k => rowLines g k ++ colLines g k

/-- The lines REC lifts, in order. -/
def recLines (g : Geom) (l : Nat) : List (List Nat) :=
  (List.range l).reverse.flatMap fun k => colLines g k ++ rowLines g k

/-- The plane transform of an operation on this hardware (R113). -/
def transform (op : Op) (levels : Nat) (w : Work) : Option Work :=
  match op with
  | .decompose => decPlane Config.liftFwd Config.geom levels w
  | .reconstruct => recPlane Config.liftInv Config.geom levels w

/-- The state after completion (R113): the work stored back, SEQ ← IDLE, BUSY ← 0, DONE ← 1. -/
def State.finish (w : Work) (s : State) : State :=
  { s with plane := w.1, lb := w.2, seq := .idle, status := s.status.completed }

/-- The sequencer's completion step (R113). Idle, it has no step to take. A cell found unwritten is `fault UninitRead`:
R111 has ruled it out at acceptance, so no run from reset meets it here (log 14). -/
def completionStep (s : State) : Out :=
  match s.seq with
  | .idle => .next s
  | .run op levels =>
    match transform op levels (s.plane, s.lb) with
    | none => .fault .uninitRead
    | some w => .next (s.finish w)

end Sys2Proof.Machine
end

