-- ==== Sys2Proof/Machine/Port.lean ====
section
/-! DEFINITION. The host port (R60, R140, R146) and the choice of the agent that moves (R174). -/

namespace Sys2Proof.Machine

/-- The port performs a transaction: what it decodes to runs, and one that matches no row is a bus error (R86, R140). -/
def serve (t : Txn) (s : State) : Out :=
  match decodeTxn t with
  | .ok i => exec i s
  | .error _ => .next s.busError

/-- The transaction the port would work on now: the held one, which nothing overtakes, or else the host's next (R60,
R146); and the state with it taken. -/
def takeTxn (s : State) : Option (Txn × State) :=
  match s.held with
  | some t => some (t, { s with held := none })
  | none =>
    match s.queue with
    | t :: rest => some (t, { s with queue := rest })
    | [] => none

/-- The host port takes or completes one transaction (R174). -/
def hostStep (s : State) : Out :=
  match takeTxn s with
  | some (t, s') => serve t s'
  | none => .next s

/-- Whether an agent has a step to take: reset always (R200); the sequencer while it runs a command (R113); the host
port while it has a transaction to take, or a held one and the block is no longer BUSY (R146). -/
def enabled (s : State) : Agent → Bool
  | .reset => true
  | .sequencer => decide (s.seq ≠ .idle)
  | .host =>
    match s.held with
    | some _ => !s.status.busy
    | none => !s.queue.isEmpty

/-- The agent that moves when the schedule does not choose an enabled one: the sequencer, else the host, else none. DESIGN
CHOICE (log 6): every order of enabled steps is some schedule's, and a running command is never postponed for ever. -/
def defaultAgent (s : State) : Option Agent :=
  if enabled s .sequencer then some .sequencer
  else if enabled s .host then some .host
  else none

/-- The agent that moves at this step (R174): the one the schedule names if it is enabled. -/
def nextAgent (s : State) : Option Agent :=
  match s.sched with
  | a :: _ => if enabled s a then some a else defaultAgent s
  | [] => defaultAgent s

/-- The schedule's head is used up by the step. -/
def State.tick (s : State) : State := { s with sched := s.sched.tail }

/-- The step of an agent. -/
def agentStep (a : Agent) (s : State) : Out :=
  match a with
  | .host => hostStep s
  | .sequencer => completionStep s
  | .reset => .next s.resetEvent

/-- One step of a state without a fault mark: the chosen agent moves (R174); when no agent has a step to take, nothing
changes but the schedule. -/
def moveStep (s : State) : Out :=
  match nextAgent s with
  | some a => agentStep a s.tick
  | none => .next s.tick

/-- One step. A faulted run has no further meaning and never comes back: no step, reset among them, clears the mark
(R175, R202). -/
def blockStep (s : State) : Out :=
  match s.mark with
  | some f => .fault f
  | none => moveStep s

/-- The state with a number of the opcode table placed as the host's very next transaction, and the host chosen to move
(log 12). -/
def placeTableWord (s : State) (_nbits w : Nat) : State :=
  { s with
    held := none
    queue := (tableEncoded (BitVec.ofNat 32 w)).txn :: s.queue
    sched := .host :: s.sched }

end Sys2Proof.Machine
end

