-- ==== Sys2Proof/Machine/Step.lean ====
section
/-! DEFINITION. The step function, and how the host places an instruction. -/

namespace Sys2Proof.Machine

/-- One step of the machine: exactly one agent moves (R174). -/
def step (s : State) : Host.Outcome State Fault Refusal := blockStep s

/-- The state in which the very next step runs the instruction with the table's number `w`: it is the host's next
transaction (log 12). -/
def State.withFetchWord (s : State) (nbits w : Nat) : State := placeTableWord s nbits w

end Sys2Proof.Machine
end

