-- ==== Sys2Proof/Machine/HostProgram.lean ====
section
/-! DEFINITION. The host-side notation of 30_encoding.md R90 and R91: a test harness beside the block, with temporaries
of its own that are no state of the block. It issues one transaction at a time and waits for its response (R60). The
conventions that R90 leaves open are log 19. -/

namespace Sys2Proof.Machine

/-- A host temporary t0..t7 (R90). -/
abbrev Tmp := Fin 8

/-- Where a host access goes: an offset, or the offset in a temporary, `[tA]` (R90). -/
inductive HostAddr where
  | off (a : Word)
  | tmp (t : Tmp)
deriving DecidableEq, Repr

/-- What a host write carries: a literal, or a temporary (R90). -/
inductive HostVal where
  | imm (v : Val)
  | tmp (t : Tmp)
deriving DecidableEq, Repr

/-- The lines of the notation (R90). A label is a number. -/
inductive HostInstr where
  | li (n : Tmp) (imm : Val)
  | addi (n m : Tmp) (imm : Val)
  | andi (n m : Tmp) (imm : Val)
  | rd32 (n : Tmp) (a : HostAddr)
  | wr32 (a : HostAddr) (v : HostVal)
  | rd64 (n : Tmp) (a : HostAddr)
  | wr64 (a : HostAddr) (v : HostVal)
  | bne (n m : Tmp) (label : Nat)
  | bnez (n : Tmp) (label : Nat)
  | beqz (n : Tmp) (label : Nat)
  | halt
  | label (name : Nat)
deriving DecidableEq, Repr

/-- What the host waits for: the response of a read into a temporary, or of a write. -/
inductive Waiting where
  | read (n : Tmp)
  | write
deriving DecidableEq, Repr

/-- The harness and the block it drives: the program, its temporaries, the next line, and whether a transaction is
outstanding. -/
structure System where
  prog : List HostInstr
  tmps : Vector Val 8
  line : Nat
  waiting : Option Waiting
  block : State
deriving DecidableEq, Repr

/-- The value of a temporary. -/
def System.tmp (y : System) (t : Tmp) : Val := y.tmps[t.val]

/-- Write a temporary and go to the next line. -/
def System.set (t : Tmp) (v : Val) (y : System) : System :=
  { y with tmps := y.tmps.set t.val v, line := y.line + 1 }

/-- The offset of an access: the low 32 bits of a temporary (log 19). -/
def System.addr (y : System) : HostAddr → Word
  | .off a => a
  | .tmp t => (y.tmp t).setWidth 32

/-- The value a write carries. -/
def System.val (y : System) : HostVal → Val
  | .imm v => v
  | .tmp t => y.tmp t

/-- The line a label names: the one after it, which passing over the label reaches. A label that is not there sends the
host past the end, where it has ended, and a label that stands twice names its first place: R90 is silent on both, DESIGN
CHOICE (log 19). -/
def labelLine (name : Nat) (prog : List HostInstr) : Nat := prog.idxOf (.label name)

/-- Branch to a label if a condition holds. -/
def System.branch (cond : Bool) (name : Nat) (y : System) : System :=
  { y with line := if cond then labelLine name y.prog else y.line + 1 }

/-- Hand a transaction to the block's port and wait. -/
def System.issue (t : Txn) (wait : Waiting) (y : System) : System :=
  { y with waiting := some wait, block := { y.block with queue := y.block.queue ++ [t] } }

/-- The response has come: `OKAY` data goes zero-extended to the temporary of a read; `ERR` leaves it unchanged; the
program continues either way (R90). -/
def System.receive (wait : Waiting) (r : Response) (y : System) : System :=
  let y' := { y with waiting := none, line := y.line + 1 }
  match wait, r with
  | .read n, .okay data => { y' with tmps := y'.tmps.set n.val (valOfLanes data) }
  | .read _, .err => y'
  | .write, _ => y'

/-- The host runs one line of its program (R90). WR32 carries the low 32 bits of its value; that a temporary or an immediate
wider than 32 bits loses its high bits is DESIGN CHOICE (log 19). -/
def hostLine (i : HostInstr) (y : System) : System :=
  match i with
  | .li n imm => y.set n imm
  | .addi n m imm => y.set n (y.tmp m + imm)
  | .andi n m imm => y.set n (y.tmp m &&& imm)
  | .rd32 n a => y.issue (.read (y.addr a) 4) (.read n)
  | .wr32 a v => y.issue (.write (y.addr a) (lanes 4 (y.val v))) .write
  | .rd64 n a => y.issue (.read (y.addr a) 8) (.read n)
  | .wr64 a v => y.issue (.write (y.addr a) (lanes 8 (y.val v))) .write
  | .bne n m l => y.branch (y.tmp n != y.tmp m) l
  | .bnez n l => y.branch (y.tmp n != 0) l
  | .beqz n l => y.branch (y.tmp n == 0) l
  | .halt => y
  | .label _ => { y with line := y.line + 1 }

/-- The block takes a step; if the outstanding transaction completed in it, the host receives the response. -/
def blockMoves (y : System) : Host.Outcome System Fault Refusal :=
  match step y.block with
  | .fault f => .fault f
  | .refused r => .refused r
  | .next b =>
    match y.waiting, b.responses[y.block.responses.length]? with
    | some wait, some r => .next (System.receive wait r { y with block := b })
    | _, _ => .next { y with block := b }

/-- One step of the harness and the block: the host runs a line, or, when it waits or has ended (HALT, or past the last
line), the block moves. -/
def systemStep (y : System) : Host.Outcome System Fault Refusal :=
  match y.waiting with
  | some _ => blockMoves y
  | none =>
    match y.prog[y.line]? with
    | none | some .halt => blockMoves y
    | some i => .next (hostLine i y)

/-! ### Pseudo-instructions (R91) -/

/-- `CMD DECOMPOSE, L`. -/
def pseudoDecompose (l : Nat) : List HostInstr := [.wr32 (.off 0x008) (.imm (BitVec.ofNat 64 (16 * l + 1)))]

/-- `CMD RECONSTRUCT, L`. -/
def pseudoReconstruct (l : Nat) : List HostInstr := [.wr32 (.off 0x008) (.imm (BitVec.ofNat 64 (16 * l + 2)))]

/-- `WAIT_IDLE`, with a label of its own. -/
def pseudoWaitIdle (name : Nat) : List HostInstr :=
  [.label name, .rd32 7 (.off 0x00C), .andi 7 7 1, .bnez 7 name]

/-- `CLEAR_STATUS`. -/
def pseudoClearStatus : List HostInstr := [.wr32 (.off 0x00C) (.imm 0x6)]

/-- `FILL tV`, with a label of its own. -/
def pseudoFill (v : Tmp) (name : Nat) : List HostInstr :=
  [.li 6 0x00100000, .li 5 0x00300000, .label name, .wr64 (.tmp 6) (.tmp v), .addi 6 6 8, .bne 6 5 name]

end Sys2Proof.Machine
end

