-- ==== Sys2Proof/Machine/Subbands.lean ====
section
/-! DEFINITION. The subband geometry of the plane: where LL, HL, LH and HH of each level lie (R66 to R68), and the groups
of four cells the codec reads from LH3 and HL3 (R70). The block's rules never use it: it says what a reader of the plane
finds where. -/

namespace Sys2Proof.Machine

/-- The four subbands of a level (R66). The first letter is the filter along rows, the second the filter along columns;
which off-diagonal quadrant is LH and which HL is the spec's decision D6 (log 18). -/
inductive Band where
  | ll
  | hl
  | lh
  | hh
deriving DecidableEq, Repr

/-- Whether cell `(r, c)` lies in a subband of level number `l` (R66): pass index `k = l - 1`, half sizes `w2 = wk / 2`
and `h2 = hk / 2`. -/
def inBand (g : Geom) (b : Band) (l r c : Nat) : Bool :=
  let wk := g.w >>> (l - 1)
  let hk := g.h >>> (l - 1)
  let top := decide (r < hk / 2)
  let bottom := decide (hk / 2 ≤ r) && decide (r < hk)
  let left := decide (c < wk / 2)
  let right := decide (wk / 2 ≤ c) && decide (c < wk)
  match b with
  | .ll => top && left
  | .hl => top && right
  | .lh => bottom && left
  | .hh => bottom && right

/-- The first row of a subband (R66, R68). -/
def bandRow (g : Geom) (b : Band) (l : Nat) : Nat :=
  match b with
  | .ll | .hl => 0
  | .lh | .hh => (g.h >>> (l - 1)) / 2

/-- The first column of a subband (R66, R68). -/
def bandCol (g : Geom) (b : Band) (l : Nat) : Nat :=
  match b with
  | .ll | .lh => 0
  | .hl | .hh => (g.w >>> (l - 1)) / 2

/-- The block offset of a subband's first cell (R52, R68). -/
def bandOffset (b : Band) (l : Nat) : Nat :=
  cellOffset (index Config.geom (bandRow Config.geom b l) (bandCol Config.geom b l))

/-- The number of cells of a subband (R68). -/
def bandCells (g : Geom) (l : Nat) : Nat := ((g.w >>> (l - 1)) / 2) * ((g.h >>> (l - 1)) / 2)

/-- The subbands a DECOMPOSE of `L` levels leaves (R67): LL of level L, and HL, LH, HH of every level 1..L. -/
def bandsAfter (levels : Nat) : List (Band × Nat) :=
  (.ll, levels) :: (List.range levels).flatMap fun k => [(.hl, k + 1), (.lh, k + 1), (.hh, k + 1)]

/-- Cell `j` of group `q` of LH3, traversed row-major (R70). -/
def lh3Quad (q j : Nat) : Nat × Nat := (64 + q / 16, 4 * (q % 16) + j)

/-- Cell `j` of group `q` of HL3, traversed column-major (R70). -/
def hl3Quad (q j : Nat) : Nat × Nat := (4 * (q % 16) + j, 64 + q / 16)

end Sys2Proof.Machine
end

