-- ==== Sys2Proof/Safety.lean ====
section
/-! DEFINITION. What the claims speak of: the invariant of the block's state, faulted runs, the laws of a lifter pair, and
what two states that differ in the line buffer alone have in common. -/

namespace Sys2Proof.Machine

/-- A transaction is a plane access: the port holds no other (R37, R146). -/
def isPlaneTxn (t : Txn) : Bool :=
  match decodeTxn t with
  | .ok (.planeRd _) => true
  | .ok (.planeWr _ _) => true
  | _ => false

/-- The invariant of the block's state: the plane is in canonical form (log 1); BUSY exactly when SEQ is not idle
(R35); BUSY and DONE never both (R30); ERRCODE 0 exactly when ERR is 0, and at most 3 (R30, R170); a running command
has at most MAX_LEVELS levels (R35) and, from one level on, a plane with no unwritten cell (R111); the line buffer
holds at most 512 values (R36); a held transaction is a plane access (R37). -/
structure State.Inv (s : State) : Prop where
  plane_wf : s.plane.wf = true
  busy_iff : s.status.busy = true ↔ s.seq ≠ .idle
  not_busy_done : ¬ (s.status.busy = true ∧ s.status.done = true)
  errcode_zero_iff : s.status.errcode = 0 ↔ s.status.err = false
  errcode_le : s.status.errcode.toNat ≤ 3
  levels_le : ∀ op l, s.seq = .run op l → l ≤ Config.maxLevels
  run_written : ∀ op l, s.seq = .run op l → 1 ≤ l → s.plane.allWritten = true
  lb_length : s.lb.length ≤ 512
  held_plane : ∀ t, s.held = some t → isPlaneTxn t = true

/-- The run is faulted (R175). A faulted state is never a final state. -/
def State.faulted (s : State) : Bool := s.mark.isSome

/-- One step of a run that is recorded to its end: a fault is recorded in the mark and the run goes on with it (R175). -/
def recordStep (s : State) : State :=
  match step s with
  | .next t => t
  | .fault f => { s with mark := some f }
  | .refused _ => s

/-- `k` recorded steps. -/
def recordRun : Nat → State → State
  | 0, s => s
  | k + 1, s => recordRun k (recordStep s)

/-- The lengths the lifter is defined on (R100): powers of two, at least MIN_LIFT_LEN. -/
def legalLength (n : Nat) : Prop := Config.minLiftLen ≤ n ∧ ∃ j, n = 2 ^ j

/-- The pair is exactly inverse (R116): a hypothesis a claim may take, never a fact about the real lifter (R102). -/
def ExactInverse (fwd inv : Lifter) : Prop :=
  ∀ n, legalLength n → ∀ v : Vector Val n, inv n (fwd n v) = v

/-- The pair is approximately inverse (R102): what the source claims of the real lifter, with the open relation
`Config.withinTol`. -/
def ApproxInverse (fwd inv : Lifter) : Prop :=
  ∀ n, legalLength n → ∀ v : Vector Val n, ∀ i : Fin n, Config.withinTol ((inv n (fwd n v))[i.val]) v[i.val] = true

/-- At the coming step the host port runs this instruction: the host is the agent that moves, and the transaction it takes
decodes to it (R140, R174). A command word reaches the port as the WR_CMD that carries it. -/
def hostRuns (s : State) (i : Instr) : Prop :=
  nextAgent s = some .host ∧ ∃ t s', takeTxn s.tick = some (t, s') ∧ decodeTxn t = .ok i

/-- The number of transactions the host has issued or is still to issue: answered, held by the port, or queued (R60). -/
def State.transactions (s : State) : Nat :=
  s.responses.length + (match s.held with | some _ => 1 | none => 0) + s.queue.length

/-- Two states agree but for the line buffer (R36). -/
def SameButLb (s t : State) : Prop := t = { s with lb := t.lb }

end Sys2Proof.Machine
end

