-- ==== Sys2Proof/Certificates/Slice0/Obligations.lean ====
section
/-! DEFINITION. The statements for the provers. Each docstring names the rule of spec/ it formalises. -/

open Sys2Proof Sys2Proof.Machine

/-! ### Encoding -/

/-- Words and transactions written out from R81 and R87 decode to the instructions they stand for: the canonical words of
R84, and one transaction of each kind. -/
def Obligations.SampleEncodingsDecode : Prop :=
  decode (.cmd32 0x000000F0) = .ok (.nop 15) ∧
  decode (.cmd32 0x00000031) = .ok (.decompose 3) ∧
  decode (.cmd32 0x00000032) = .ok (.reconstruct 3) ∧
  decode (.bus (.read 0x0000000C 4)) = .ok .rdStatus ∧
  decode (.bus (.write 0x00000008 [0x31, 0x00, 0x00, 0x80])) = .ok (.wrCmd 0x80000031) ∧
  decode (.bus (.read 0x001ABCD8 8)) = .ok (.planeRd 0x3579B) ∧
  decode (.bus (.write 0x002FFFF8 [0, 0, 0, 0, 0, 0, 0x20, 0x40])) = .ok (.planeWr 0x5FFFF 0x4020000000000000)

/-- Decoding an encoded well-formed instruction gives it back, with every operand at every value (R81, R82, R87). -/
def Obligations.DecodeOfEncode : Prop :=
  ∀ i : Instr, i.wf = true → decode (encode i) = .ok i

/-- Whatever decodes is the one encoding of a well-formed instruction: no two encodings share an instruction, and no
instruction outside the table is read (R83, R87). -/
def Obligations.EncodeOfDecode : Prop :=
  ∀ (e : Encoded) (i : Instr), decode e = .ok i → i.wf = true ∧ encode i = e

/-- R83: the command word decodes by its value under the mask 0xFFFF_FF0F, with LEVELS its bits 7:4 (R82). -/
def Obligations.CommandDecodesByMask : Prop :=
  ∀ w : Word,
    (w &&& 0xFFFFFF0F = 0 → decode (.cmd32 w) = .ok (.nop ((w >>> 4).setWidth 4))) ∧
    (w &&& 0xFFFFFF0F = 1 → decode (.cmd32 w) = .ok (.decompose ((w >>> 4).setWidth 4))) ∧
    (w &&& 0xFFFFFF0F = 2 → decode (.cmd32 w) = .ok (.reconstruct ((w >>> 4).setWidth 4))) ∧
    (w &&& 0xFFFFFF0F ≠ 0 → w &&& 0xFFFFFF0F ≠ 1 → w &&& 0xFFFFFF0F ≠ 2 → decode (.cmd32 w) = .error .badOpcode)

/-- R87: the twelve rows of the bus map, and no other transaction decodes. -/
def Obligations.BusDecodesByTable : Prop :=
  (∀ (a : Word) (n : Nat),
    (a = 0x000 → n = 4 → decode (.bus (.read a n)) = .ok .rdId) ∧
    (a = 0x004 → n = 4 → decode (.bus (.read a n)) = .ok .rdInfo) ∧
    (a = 0x008 → n = 4 → decode (.bus (.read a n)) = .ok .rdCmd) ∧
    (a = 0x00C → n = 4 → decode (.bus (.read a n)) = .ok .rdStatus) ∧
    (a = 0x010 → n = 4 → decode (.bus (.read a n)) = .ok .rdIrqEn) ∧
    (0x00100000 ≤ a.toNat → a.toNat ≤ 0x002FFFF8 → a.toNat % 8 = 0 → n = 8 →
      decode (.bus (.read a n)) = .ok (.planeRd ((a >>> 3).setWidth 19))) ∧
    (¬ (n = 4 ∧ (a = 0x000 ∨ a = 0x004 ∨ a = 0x008 ∨ a = 0x00C ∨ a = 0x010)) →
      ¬ (n = 8 ∧ 0x00100000 ≤ a.toNat ∧ a.toNat ≤ 0x002FFFF8 ∧ a.toNat % 8 = 0) →
      ∃ e, decode (.bus (.read a n)) = .error e)) ∧
  (∀ (a : Word) (data : List Byte),
    (a = 0x000 → data.length = 4 → decode (.bus (.write a data)) = .ok (.wrId (wordOfLanes data))) ∧
    (a = 0x004 → data.length = 4 → decode (.bus (.write a data)) = .ok (.wrInfo (wordOfLanes data))) ∧
    (a = 0x008 → data.length = 4 → decode (.bus (.write a data)) = .ok (.wrCmd (wordOfLanes data))) ∧
    (a = 0x00C → data.length = 4 → decode (.bus (.write a data)) = .ok (.wrStatus (wordOfLanes data))) ∧
    (a = 0x010 → data.length = 4 → decode (.bus (.write a data)) = .ok (.wrIrqEn (wordOfLanes data))) ∧
    (0x00100000 ≤ a.toNat → a.toNat ≤ 0x002FFFF8 → a.toNat % 8 = 0 → data.length = 8 →
      decode (.bus (.write a data)) = .ok (.planeWr ((a >>> 3).setWidth 19) (valOfLanes data))) ∧
    (¬ (data.length = 4 ∧ (a = 0x000 ∨ a = 0x004 ∨ a = 0x008 ∨ a = 0x00C ∨ a = 0x010)) →
      ¬ (data.length = 8 ∧ 0x00100000 ≤ a.toNat ∧ a.toNat ≤ 0x002FFFF8 ∧ a.toNat % 8 = 0) →
      ∃ e, decode (.bus (.write a data)) = .error e))

/-- R89: the words of the assembler's three mnemonics, and the refusal of `#L` outside 0..15. -/
def Obligations.AssemblerWords : Prop :=
  decode (.cmd32 asmNop) = .ok (.nop 0) ∧
  (∀ l : Nat, l ≤ 15 →
    (∃ w, asmDecompose l = some w ∧ w = (BitVec.ofNat 32 l <<< 4) ||| 1 ∧
      decode (.cmd32 w) = .ok (.decompose (BitVec.ofNat 4 l))) ∧
    (∃ w, asmReconstruct l = some w ∧ w = (BitVec.ofNat 32 l <<< 4) ||| 2 ∧
      decode (.cmd32 w) = .ok (.reconstruct (BitVec.ofNat 4 l)))) ∧
  (∀ l : Nat, 15 < l → asmDecompose l = none ∧ asmReconstruct l = none)

/-- R53: lane `j` of a value is its bits 8j+7 : 8j, and lanes put together give the value back. -/
def Obligations.LanesAreLittleEndian : Prop :=
  (∀ (m n : Nat) (v : BitVec m) (j : Nat), j < n → (lanes n v)[j]? = some ((v >>> (8 * j)).setWidth 8)) ∧
  (∀ (m n : Nat) (v : BitVec m), (lanes n v).length = n) ∧
  (∀ w : Word, wordOfLanes (lanes 4 w) = w) ∧
  (∀ v : Val, valOfLanes (lanes 8 v) = v)

/-- R52: an offset of the plane window names the cell with index (a - PLANE_OFFSET) >> 3, row e >> 9, column e & 511;
an aligned one is read and written as that cell; and cell (r, c) is at PLANE_OFFSET + 8 * (r * 512 + c). -/
def Obligations.PlaneOffsetNamesCell : Prop :=
  (∀ a : Word, 0x00100000 ≤ a.toNat → a.toNat < 0x00300000 →
    cellIndex (planeField a) = (a.toNat - 0x00100000) / 8) ∧
  (∀ a : Word, 0x00100000 ≤ a.toNat → a.toNat ≤ 0x002FFFF8 → a.toNat % 8 = 0 →
    ∃ cell, decode (.bus (.read a 8)) = .ok (.planeRd cell) ∧
      cellIndex cell = (a.toNat - 0x00100000) / 8 ∧
      cellIndex cell = rowOf (cellIndex cell) * 512 + colOf (cellIndex cell) ∧
      rowOf (cellIndex cell) < 512 ∧ colOf (cellIndex cell) < 512) ∧
  (∀ r c : Nat, r < 512 → c < 512 →
    index Config.geom r c = r * 512 + c ∧ rowOf (r * 512 + c) = r ∧ colOf (r * 512 + c) = c ∧
    cellOffset (r * 512 + c) = 0x00100000 + r * 0x1000 + 8 * c ∧
    ∃ cell, decode (.bus (.read (BitVec.ofNat 32 (0x00100000 + 8 * (r * 512 + c))) 8)) = .ok (.planeRd cell) ∧
      cellIndex cell = r * 512 + c)

/-! ### Register transactions -/

/-- R27, R141, R149: ID always reads 0x5744_3244, and a write to ID completes `OKAY` and changes nothing. -/
def Obligations.IdIsHardwired : Prop :=
  ∀ (s : State) (d : Word),
    exec .rdId s = .next { s with responses := s.responses ++ [.okay [0x44, 0x32, 0x44, 0x57]] } ∧
    exec (.wrId d) s = .next { s with responses := s.responses ++ [.okay []] }

/-- R28, R142, R150: INFO always reads 0x0000_0399 (LOG2W 9, LOG2H 9, MAXLEV 3), and a write completes `OKAY` and changes
nothing. -/
def Obligations.InfoIsHardwired : Prop :=
  ∀ (s : State) (d : Word),
    exec .rdInfo s = .next { s with responses := s.responses ++ [.okay [0x99, 0x03, 0x00, 0x00]] } ∧
    exec (.wrInfo d) s = .next { s with responses := s.responses ++ [.okay []] }

/-- R143: a read of CMD returns 0 and changes nothing. -/
def Obligations.CmdReadsZero : Prop :=
  ∀ s : State, exec .rdCmd s = .next { s with responses := s.responses ++ [.okay [0, 0, 0, 0]] }

/-- R144: RD_STATUS returns ERRCODE in bits 7:4, ERR, DONE and BUSY in bits 2, 1 and 0, every other bit 0, and clears
nothing. -/
def Obligations.StatusReadsItsFields : Prop :=
  ∀ s : State, ∃ b : Byte,
    exec .rdStatus s = .next { s with responses := s.responses ++ [.okay [b, 0, 0, 0]] } ∧
    b.getLsbD 0 = s.status.busy ∧ b.getLsbD 1 = s.status.done ∧ b.getLsbD 2 = s.status.err ∧ b.getLsbD 3 = false ∧
    b.extractLsb' 4 4 = s.status.errcode

/-- R31, R152: a write to STATUS clears DONE by d[1], ERR and ERRCODE by d[2], ignores every other bit, and completes
`OKAY` whether or not the block is BUSY. -/
def Obligations.StatusWriteClears : Prop :=
  ∀ (s : State) (d : Word),
    exec (.wrStatus d) s = .next { s with
      status :=
        { busy := s.status.busy
          done := s.status.done && !(d.getLsbD 1)
          err := s.status.err && !(d.getLsbD 2)
          errcode := if d.getLsbD 2 = true then 0 else s.status.errcode }
      responses := s.responses ++ [.okay []] }

/-- R33, R145, R153: a write to IRQ_EN sets DONE_IE to d[0] and ERR_IE to d[1] and completes `OKAY`; a read returns
zext_32 of ERR_IE and DONE_IE. -/
def Obligations.IrqEnWriteAndRead : Prop :=
  ∀ (s : State) (d : Word),
    exec (.wrIrqEn d) s = .next { s with
      irqEn := { doneIe := d.getLsbD 0, errIe := d.getLsbD 1 }
      responses := s.responses ++ [.okay []] } ∧
    ∃ b : Byte,
      exec .rdIrqEn s = .next { s with responses := s.responses ++ [.okay [b, 0, 0, 0]] } ∧
      b.getLsbD 0 = s.irqEn.doneIe ∧ b.getLsbD 1 = s.irqEn.errIe ∧ b.extractLsb' 2 6 = 0

/-! ### Commands -/

/-- R115: a NOP changes no state of the block, idle or BUSY; the sixteen NOP words are those with only bits of LEVELS
set; 0x4 is no NOP. That a NOP run by itself answers `OKAY` is the answer of the CMD write that carries it (R110, R151), and
that it runs as that write is log 10, the model's DEDUCED reading. -/
def Obligations.NopDoesNothing : Prop :=
  (∀ (levels : BitVec 4) (s : State),
    exec (.nop levels) s = .next { s with responses := s.responses ++ [.okay []] }) ∧
  (∀ (levels : BitVec 4) (s : State),
    exec (.wrCmd (levels.setWidth 32 <<< 4)) s = .next { s with responses := s.responses ++ [.okay []] }) ∧
  (∀ s : State,
    exec (.wrCmd 4) s = .next { s with
      status := { s.status with err := true, errcode := if s.status.busy = true then 3 else 1 }
      responses := s.responses ++ [.okay []] })

/-- R110, word for word: what a write of the command word `w` to CMD does. The check of R111 is `allWritten`, which
`UninitReadExactlyOnUnwrittenCells` spells out. -/
def Obligations.CmdWriteFollowsAcceptanceRule : Prop :=
  ∀ (w : Word) (s : State),
    exec (.wrCmd w) s =
      if w &&& 0xFFFFFF0F = 0 then
        .next { s with responses := s.responses ++ [.okay []] }
      else if s.status.busy = true then
        .next { s with
          status := { s.status with err := true, errcode := 3 }
          responses := s.responses ++ [.okay []] }
      else if w >>> 8 ≠ 0 ∨ (w >>> 2) &&& 3 ≠ 0 ∨ w &&& 3 = 3 then
        .next { s with
          status := { s.status with err := true, errcode := 1 }
          responses := s.responses ++ [.okay []] }
      else if ((w >>> 4) &&& 15).toNat > 3 then
        .next { s with
          status := { s.status with err := true, errcode := 2 }
          responses := s.responses ++ [.okay []] }
      else if ((w >>> 4) &&& 15).toNat ≥ 1 ∧ s.plane.allWritten = false then
        .fault .uninitRead
      else
        .next { s with
          seq := .run (if w &&& 3 = 1 then .decompose else .reconstruct) ((w >>> 4) &&& 15).toNat
          status := { s.status with busy := true, done := false }
          responses := s.responses ++ [.okay []] }

/-- R80, R151: a command word runs as the CMD write that carries it. -/
def Obligations.CommandRunsAsItsWrite : Prop :=
  ∀ (w : Word) (i : Instr) (s : State), decode (.cmd32 w) = .ok i → exec (.wrCmd w) s = exec i s

/-- R112, R114, with R110: idle, with L ≤ 3 and, from L = 1 on, every cell written, DECOMPOSE #L and RECONSTRUCT #L are
accepted, and so is a WR_CMD of their word: SEQ ← RUN(op, L), BUSY ← 1, DONE ← 0, and nothing else changes; not the
plane, which the completion step transforms. -/
def Obligations.TransformCommandsAccepted : Prop :=
  ∀ (levels : BitVec 4) (s : State),
    s.status.busy = false → levels.toNat ≤ 3 →
    (1 ≤ levels.toNat → ∀ e, e < 262144 → (s.plane.read e).isSome = true) →
    (∀ i : Instr, i = .decompose levels ∨ i = .wrCmd (levels.setWidth 32 <<< 4 ||| 1) →
      exec i s = .next { s with
        seq := .run .decompose levels.toNat
        status := { s.status with busy := true, done := false }
        responses := s.responses ++ [.okay []] }) ∧
    (∀ i : Instr, i = .reconstruct levels ∨ i = .wrCmd (levels.setWidth 32 <<< 4 ||| 2) →
      exec i s = .next { s with
        seq := .run .reconstruct levels.toNat
        status := { s.status with busy := true, done := false }
        responses := s.responses ++ [.okay []] })

/-- R171, R173 for the two transforms: while BUSY both are rejected with CMD_WHILE_BUSY, whatever L; idle, L in 4..15 with
BAD_LEVELS. A rejection sets ERR and ERRCODE, replacing an earlier code, and changes nothing else. -/
def Obligations.TransformCommandsRejected : Prop :=
  ∀ (levels : BitVec 4) (s : State) (i : Instr), i = .decompose levels ∨ i = .reconstruct levels →
    (s.status.busy = true →
      exec i s = .next { s with
        status := { s.status with err := true, errcode := 3 }
        responses := s.responses ++ [.okay []] }) ∧
    (s.status.busy = false → 4 ≤ levels.toNat →
      exec i s = .next { s with
        status := { s.status with err := true, errcode := 2 }
        responses := s.responses ++ [.okay []] })

/-- R111: an accepted DECOMPOSE or RECONSTRUCT faults UninitRead exactly when L ≥ 1 and some plane cell is unwritten. -/
def Obligations.UninitReadExactlyOnUnwrittenCells : Prop :=
  (∀ m : Memory, m.allWritten = true ↔ ∀ e, e < 262144 → (m.read e).isSome = true) ∧
  (∀ (levels : BitVec 4) (s : State) (i : Instr), i = .decompose levels ∨ i = .reconstruct levels →
    s.status.busy = false → levels.toNat ≤ 3 →
    (exec i s = .fault .uninitRead ↔ 1 ≤ levels.toNat ∧ ∃ e, e < 262144 ∧ s.plane.read e = none))

/-! ### Plane accesses -/

/-- R147: PLANE_RD of a cell. Idle: the cell's 64 bits in little-endian lanes, or the model fault where it is unwritten.
BUSY: held (R146). Nothing else changes. -/
def Obligations.PlaneReadReturnsCell : Prop :=
  ∀ (s : State) (cell : BitVec 19), 0x20000 ≤ cell.toNat → cell.toNat ≤ 0x5FFFF →
    (s.status.busy = true →
      exec (.planeRd cell) s = .next { s with held := some (.read (BitVec.ofNat 32 (8 * cell.toNat)) 8) }) ∧
    (s.status.busy = false → s.plane.read (cell.toNat - 0x20000) = none →
      exec (.planeRd cell) s = .fault .uninitRead) ∧
    (∀ v : Val, s.status.busy = false → s.plane.read (cell.toNat - 0x20000) = some v →
      exec (.planeRd cell) s = .next { s with responses := s.responses ++ [.okay
        [v.extractLsb' 0 8, v.extractLsb' 8 8, v.extractLsb' 16 8, v.extractLsb' 24 8,
         v.extractLsb' 32 8, v.extractLsb' 40 8, v.extractLsb' 48 8, v.extractLsb' 56 8]] })

/-- R148: PLANE_WR of a cell. Idle: the cell becomes `d` and every other cell stays; seen bytewise, the eight bytes at
`planeAddr cell` become the lanes of `d`, and every byte outside them reads as before. BUSY: held (R146). Nothing else
changes. -/
def Obligations.PlaneWriteStoresCell : Prop :=
  ∀ (s : State) (cell : BitVec 19) (d : Val), 0x20000 ≤ cell.toNat → cell.toNat ≤ 0x5FFFF →
    (s.status.busy = true →
      exec (.planeWr cell d) s = .next { s with held := some (.write (planeAddr cell) (lanes 8 d)) }) ∧
    (s.status.busy = false →
      ∃ m : Memory,
        exec (.planeWr cell d) s = .next { s with plane := m, responses := s.responses ++ [.okay []] } ∧
        m.read (cell.toNat - 0x20000) = some d ∧
        (∀ e, e ≠ cell.toNat - 0x20000 → m.read e = s.plane.read e) ∧
        (∀ j, j < 8 → m.byteAt (planeAddr cell + BitVec.ofNat 32 j) = some (d.extractLsb' (8 * j) 8)) ∧
        (∀ a : Word, ¬ ((planeAddr cell).toNat ≤ a.toNat ∧ a.toNat < (planeAddr cell).toNat + 8) →
          m.byteAt a = s.plane.byteAt a))

/-- The table's plane rows outside the window: an unmapped offset, so a bus error, and nothing else changes (R56, R172;
log 13). -/
def Obligations.PlaneFieldOutsideWindowIsBusError : Prop :=
  ∀ (s : State) (cell : BitVec 19) (d : Val), cell.toNat < 0x20000 ∨ 0x5FFFF < cell.toNat →
    exec (.planeRd cell) s = .next { s with responses := s.responses ++ [.err] } ∧
    exec (.planeWr cell d) s = .next { s with responses := s.responses ++ [.err] }

/-! ### Frames -/

/-- What an instruction leaves unchanged when exec gives a next state. Only WR_IRQ_EN changes IRQ_EN; only PLANE_WR the
plane, in every byte; only a plane access what the port holds; only a command SEQ, BUSY; only a command or WR_STATUS the
STATUS flags; none the line buffer, the fault mark, the host's queue or the schedule; and the host's earlier responses
stay (R58). -/
def Obligations.InstructionFrames : Prop :=
  ∀ (i : Instr) (s t : State), exec i s = .next t →
    t.lb = s.lb ∧ t.mark = s.mark ∧ t.queue = s.queue ∧ t.sched = s.sched ∧
    (∃ r, t.responses = s.responses ++ r) ∧
    ((∀ d, i ≠ .wrIrqEn d) → t.irqEn = s.irqEn) ∧
    ((∀ cell d, i ≠ .planeWr cell d) → t.plane = s.plane ∧ ∀ a, t.plane.byteAt a = s.plane.byteAt a) ∧
    ((∀ cell, i ≠ .planeRd cell) → (∀ cell d, i ≠ .planeWr cell d) → t.held = s.held) ∧
    ((∀ l, i ≠ .decompose l) → (∀ l, i ≠ .reconstruct l) → (∀ w, i ≠ .wrCmd w) →
      t.seq = s.seq ∧ t.status.busy = s.status.busy ∧ ((∀ d, i ≠ .wrStatus d) → t.status = s.status))

/-! ### The host port and the agents -/

/-- A step runs the decoded instruction: when the host port is the agent that moves and the transaction it takes (the
held one once the block is not BUSY, else the head of the queue) decodes to `i`, the step is exec of `i` with that
transaction taken and the schedule's head used up (R140, R146, R60). -/
def Obligations.StepRunsDecodedTransaction : Prop :=
  (∀ (s : State) (t : Txn) (rest : List Txn) (sch : List Agent) (i : Instr),
    s.mark = none → s.held = none → s.queue = t :: rest → s.sched = .host :: sch → decodeTxn t = .ok i →
    step s = exec i { s with queue := rest, sched := sch }) ∧
  (∀ (s : State) (t : Txn) (sch : List Agent) (i : Instr),
    s.mark = none → s.held = some t → s.status.busy = false → s.sched = .host :: sch → decodeTxn t = .ok i →
    step s = exec i { s with held := none, sched := sch })

/-- R172: a transaction that matches no row completes with `ERR` and changes no state; one that matches a row never gets
`ERR` from its instruction; and `ERR` is what a transaction held at reset gets, from the reset (R201). -/
def Obligations.BusErrorChangesNothing : Prop :=
  (∀ (s : State) (t : Txn) (rest : List Txn) (sch : List Agent) (e : DecodeError),
    s.mark = none → s.held = none → s.queue = t :: rest → s.sched = .host :: sch → decodeTxn t = .error e →
    step s = .next { s with queue := rest, sched := sch, responses := s.responses ++ [.err] }) ∧
  (∀ (t : Txn) (i : Instr) (s u : State), decodeTxn t = .ok i → exec i s = .next u →
    u.responses ≠ s.responses ++ [.err]) ∧
  (∀ (s : State) (t : Txn), s.held = some t →
    s.resetEvent.responses = s.responses ++ [.err] ∧ s.resetEvent.held = none)

/-- R174: at each step one agent moves, and any enabled agent may be the one: whichever the schedule names first. The
conditions are those of R200 (reset: always), R113 (the sequencer: while SEQ is RUN) and R60, R146 (the host port: a
transaction to take, or a held one and BUSY = 0). A step that no schedule chose is still the step of an enabled agent; if
neither the host nor the sequencer is enabled nothing changes but the schedule (the model's choice, log 6). -/
def Obligations.AnyEnabledAgentMayMove : Prop :=
  (∀ (s : State) (a : Agent) (sch : List Agent), s.mark = none → s.sched = a :: sch → enabled s a = true →
    step s = agentStep a { s with sched := sch }) ∧
  (∀ s : State, s.mark = none →
    (∃ a, enabled s a = true ∧ step s = agentStep a { s with sched := s.sched.tail }) ∨
    (enabled s .sequencer = false ∧ enabled s .host = false ∧ step s = .next { s with sched := s.sched.tail })) ∧
  (∀ s : State,
    enabled s .reset = true ∧
    (enabled s .sequencer = true ↔ ∃ op l, s.seq = .run op l) ∧
    (enabled s .host = true ↔
      (∃ t, s.held = some t ∧ s.status.busy = false) ∨ (s.held = none ∧ ∃ t rest, s.queue = t :: rest)))

/-- R146: while the port holds a transaction it takes no other, whichever agent moves; while the block is BUSY a held
transaction is not performed: unless reset ends it, it stays held and nothing is answered. -/
def Obligations.HeldTransactionKeepsItsPlace : Prop :=
  ∀ (s t : State) (h : Txn), s.held = some h → step s = .next t →
    t.queue = s.queue ∧
    (s.status.busy = true → nextAgent s ≠ some .reset → t.held = some h ∧ t.responses = s.responses)

/-- R60: no step loses, duplicates or reorders a transaction: what was answered stays, and the number of transactions
answered, held and queued together never changes. -/
def Obligations.TransactionsAreConserved : Prop :=
  ∀ s t : State, step s = .next t →
    (∃ r, t.responses = s.responses ++ r ∧ r.length ≤ 1) ∧ t.transactions = s.transactions ∧
    (t.queue = s.queue ∨ ∃ x, s.queue = x :: t.queue)

/-- R57, R146: a plane access is performed only while BUSY = 0. -/
def Obligations.NoPlaneAccessWhileBusy : Prop :=
  ∀ (s t : State) (cell : BitVec 19), s.status.busy = true → step s = .next t →
    (hostRuns s (.planeRd cell) ∨ ∃ d, hostRuns s (.planeWr cell d)) →
    t.responses = s.responses ∧ t.plane = s.plane ∧ t.held.isSome = true

/-- R174, the STATUS write that races completion (TV-X1), with L = 0: taken before completion it clears nothing and
completion sets DONE; taken after, it clears DONE. Both orders are runs of the model. -/
def Obligations.StatusWriteRacesCompletion : Prop :=
  ∀ (s : State), s.mark = none → s.held = none → s.seq = .run .decompose 0 →
    s.status = ⟨true, false, false, 0⟩ → s.queue = [.write 0x00C [2, 0, 0, 0]] →
    (∃ t, core.run 2 { s with sched := [.host, .sequencer] } = .next t ∧ t.status = ⟨false, true, false, 0⟩) ∧
    (∃ t, core.run 2 { s with sched := [.sequencer, .host] } = .next t ∧ t.status = ⟨false, false, false, 0⟩)

/-! ### Completion -/

/-- R113: the completion step, enabled exactly when SEQ is RUN(op, L): P ← DEC(P, L) or REC(P, L), SEQ ← IDLE, BUSY ← 0,
DONE ← 1, in one step; nothing else changes but the schedule and the line buffer. What it leaves in the line buffer is the
model's choice (log 3); the spec gives no value there. -/
def Obligations.CompletionStep : Prop :=
  ∀ (s : State) (sch : List Agent) (op : Op) (l : Nat) (p : Memory) (lb : List Val),
    s.mark = none → s.sched = .sequencer :: sch → s.seq = .run op l →
    (match op with
      | .decompose => decPlane Config.liftFwd Config.geom l (s.plane, s.lb) = some (p, lb)
      | .reconstruct => recPlane Config.liftInv Config.geom l (s.plane, s.lb) = some (p, lb)) →
    step s = .next { s with
      plane := p
      lb := lb
      seq := .idle
      status := { s.status with busy := false, done := true }
      sched := sch }

/-- R111, R113: the transform of a command has a result whenever every cell is written, and with L = 0 whatever the plane
holds; and L = 0 changes nothing (D5). `RunningCommandCompletes` says that the step then completes the command. -/
def Obligations.TransformHasResult : Prop :=
  ∀ (f : Lifter) (l : Nat) (m : Memory) (lb : List Val),
    (decPlane f Config.geom 0 (m, lb) = some (m, lb) ∧ recPlane f Config.geom 0 (m, lb) = some (m, lb)) ∧
    ((∀ e, e < 262144 → (m.read e).isSome = true) →
      (∃ w, decPlane f Config.geom l (m, lb) = some w) ∧ (∃ w, recPlane f Config.geom l (m, lb) = some w))

/-- R112, R114, from the CMD write to completion: taken by an idle block with L ≤ 3 and, from L = 1 on, every cell
written, and followed by the sequencer's step, a CMD write of DECOMPOSE #L or RECONSTRUCT #L leaves DEC(P, L) or REC(P, L)
in the plane, the block idle, DONE = 1, ERR and ERRCODE as they were, and the write answered `OKAY`. What it leaves in the
line buffer is the model's choice (log 3); the spec gives no value there. -/
def Obligations.CommandRunsToCompletion : Prop :=
  ∀ (s : State) (levels : BitVec 4) (rest : List Txn) (sch : List Agent),
    s.mark = none → s.held = none → s.status.busy = false → levels.toNat ≤ 3 →
    (1 ≤ levels.toNat → ∀ e, e < 262144 → (s.plane.read e).isSome = true) →
    s.sched = .host :: .sequencer :: sch →
    (s.queue = .write 0x008 (lanes 4 (levels.setWidth 32 <<< 4 ||| (1 : Word))) :: rest →
      ∃ p lb, decPlane Config.liftFwd Config.geom levels.toNat (s.plane, s.lb) = some (p, lb) ∧
        core.run 2 s = .next { s with
          plane := p
          lb := lb
          seq := .idle
          status := { s.status with busy := false, done := true }
          responses := s.responses ++ [.okay []]
          queue := rest
          sched := sch }) ∧
    (s.queue = .write 0x008 (lanes 4 (levels.setWidth 32 <<< 4 ||| (2 : Word))) :: rest →
      ∃ p lb, recPlane Config.liftInv Config.geom levels.toNat (s.plane, s.lb) = some (p, lb) ∧
        core.run 2 s = .next { s with
          plane := p
          lb := lb
          seq := .idle
          status := { s.status with busy := false, done := true }
          responses := s.responses ++ [.okay []]
          queue := rest
          sched := sch })

/-- R113, weak fairness: whatever the host does and whatever the schedule, a running command is over after at most one
step more than the schedule is long: completed, aborted by reset, or the run has faulted. -/
def Obligations.RunningCommandEnds : Prop :=
  ∀ s : State, s.mark = none → s.seq ≠ .idle →
    ∃ n, n ≤ s.sched.length + 1 ∧
      ((∃ t, core.run n s = .next t ∧ t.seq = .idle) ∨ core.run n s = .fault .uninitRead)

/-- R113 and R111 together: from a state of the invariant, a running command ends without a fault after at most one step
more than the schedule is long, and if no reset is scheduled it ends by completion, with DONE = 1. That a run past the end
of the schedule lets the sequencer move is the model's choice (log 6). -/
def Obligations.RunningCommandCompletes : Prop :=
  ∀ s : State, s.mark = none → s.Inv → s.seq ≠ .idle →
    ∃ n t, n ≤ s.sched.length + 1 ∧ core.run n s = .next t ∧ t.seq = .idle ∧
      (Agent.reset ∉ s.sched → t.status.done = true)

/-- R175: in a state of the invariant a step faults at the two places that rule lists and nowhere else: the host runs
PLANE_RD of an unwritten cell while BUSY = 0 (R147), or a CMD write that is accepted with L ≥ 1 while some cell is unwritten
(R111). So the completion step never faults there (log 14). -/
def Obligations.StepFaultsOnlyWhereListed : Prop :=
  ∀ s : State, s.mark = none → s.Inv →
    (step s = .fault .uninitRead ↔
      (∃ cell, hostRuns s (.planeRd cell) ∧ s.status.busy = false ∧ s.plane.read (cell.toNat - 0x20000) = none) ∨
      (∃ w, hostRuns s (.wrCmd w) ∧ s.status.busy = false ∧ (w &&& 0xFFFFFF0F = 1 ∨ w &&& 0xFFFFFF0F = 2) ∧
        1 ≤ ((w >>> 4) &&& 15).toNat ∧ ((w >>> 4) &&& 15).toNat ≤ 3 ∧ ∃ e, e < 262144 ∧ s.plane.read e = none))

/-! ### The transforms -/

/-- R104: RowPass(dir, k) gives cell (r, c) of the active region element c of the lifter's result on row r, of length
wk = PLANE_W >> k, and leaves every other cell as it was. Every row's input is the plane as it was before the pass. -/
def Obligations.RowPassLiftsActiveRows : Prop :=
  ∀ (f : Lifter) (g : Geom) (k : Nat) (m : Memory) (lb : List Val),
    (∀ r c, r < g.h >>> k → c < g.w >>> k → (m.read (r * g.w + c)).isSome = true) →
    ∃ m' lb', rowPass f g k (m, lb) = some (m', lb') ∧
      (∀ (r c : Nat) (_ : r < g.h >>> k) (hc : c < g.w >>> k),
        m'.read (r * g.w + c) =
          some ((f (g.w >>> k) (Vector.ofFn fun j => (m.read (r * g.w + j.val)).getD 0))[c]'hc)) ∧
      (∀ e, (∀ r c, r < g.h >>> k → c < g.w >>> k → e ≠ r * g.w + c) → m'.read e = m.read e)

/-- R105: ColPass(dir, k) gives cell (r, c) of the active region element r of the lifter's result on column c, of length
hk = PLANE_H >> k, and leaves every other cell as it was. -/
def Obligations.ColPassLiftsActiveColumns : Prop :=
  ∀ (f : Lifter) (g : Geom) (k : Nat) (m : Memory) (lb : List Val),
    (∀ r c, r < g.h >>> k → c < g.w >>> k → (m.read (r * g.w + c)).isSome = true) →
    ∃ m' lb', colPass f g k (m, lb) = some (m', lb') ∧
      (∀ (r c : Nat) (hr : r < g.h >>> k) (_ : c < g.w >>> k),
        m'.read (r * g.w + c) =
          some ((f (g.h >>> k) (Vector.ofFn fun i => (m.read (i.val * g.w + c)).getD 0))[r]'hr)) ∧
      (∀ e, (∀ r c, r < g.h >>> k → c < g.w >>> k → e ≠ r * g.w + c) → m'.read e = m.read e)

/-- R106: the order of the lines of one pass cannot change the plane it gives. -/
def Obligations.LineOrderDoesNotMatter : Prop :=
  ∀ (f : Lifter) (g : Geom) (k n : Nat) (m : Memory) (lb : List Val) (lines : List (List Nat)),
    m.wfIn n = true →
    (lines.Perm (rowLines g k) →
      (liftLines f lines (m, lb)).map Prod.fst = (rowPass f g k (m, lb)).map Prod.fst) ∧
    (lines.Perm (colLines g k) →
      (liftLines f lines (m, lb)).map Prod.fst = (colPass f g k (m, lb)).map Prod.fst)

/-- R107: DEC runs passes 0..L-1, rows before columns in each. -/
def Obligations.DecomposeRunsPassesUpward : Prop :=
  ∀ (f : Lifter) (g : Geom) (l : Nat) (w : Work),
    decPlane f g 0 w = some w ∧
    decPlane f g (l + 1) w = (decPlane f g l w).bind fun x => (rowPass f g l x).bind (colPass f g l)

/-- R108: REC runs passes L-1 down to 0 ("reverse level order"), columns before rows in each. -/
def Obligations.ReconstructRunsPassesDownward : Prop :=
  ∀ (f : Lifter) (g : Geom) (l : Nat) (w : Work),
    recPlane f g 0 w = some w ∧
    recPlane f g (l + 1) w = ((colPass f g l w).bind (rowPass f g l)).bind (recPlane f g l)

/-- R109, which the spec derives: DEC lifts hk rows of length wk and then wk columns of length hk at each pass index upward,
REC wk columns of length hk and then hk rows of length wk at each pass index downward, in all 1 792 lines for L = 3 on the 512 × 512 plane; R7: every length is 512, 256 or 128. -/
def Obligations.LifterCallCounts : Prop :=
  (∀ (f : Lifter) (g : Geom) (l : Nat) (w : Work),
    decPlane f g l w = liftLines f (decLines g l) w ∧ recPlane f g l w = liftLines f (recLines g l) w) ∧
  (∀ (g : Geom) (l : Nat),
    (decLines g l).map List.length =
      (List.range l).flatMap (fun k =>
        List.replicate (g.h >>> k) (g.w >>> k) ++ List.replicate (g.w >>> k) (g.h >>> k)) ∧
    (recLines g l).map List.length =
      (List.range l).reverse.flatMap (fun k =>
        List.replicate (g.w >>> k) (g.h >>> k) ++ List.replicate (g.h >>> k) (g.w >>> k)) ∧
    (recLines g l).length = (decLines g l).length ∧
    (decLines g l).length = ((List.range l).map fun k => g.h >>> k + g.w >>> k).sum) ∧
  (decLines Config.geom 1).length = 1024 ∧ (decLines Config.geom 2).length = 1536 ∧
  (decLines Config.geom 3).length = 1792 ∧
  (∀ line, line ∈ decLines Config.geom 3 ++ recLines Config.geom 3 →
    line.length = 512 ∨ line.length = 256 ∨ line.length = 128)

/-- R116, which the spec derives: if the lifter pair is exactly inverse, RECONSTRUCT #L undoes DECOMPOSE #L on every
fully written plane, for every L in 0..3. Exactness is a hypothesis about the pair: nothing says it of the real one
(R102). -/
def Obligations.ReconstructUndoesDecompose : Prop :=
  ∀ (fwd inv : Lifter), ExactInverse fwd inv →
    ∀ (l : Nat) (m : Memory) (lb : List Val), l ≤ 3 → m.wf = true →
      (∀ e, e < 262144 → (m.read e).isSome = true) →
      ∃ m' lb' lb'', decPlane fwd Config.geom l (m, lb) = some (m', lb') ∧
        recPlane inv Config.geom l (m', lb') = some (m, lb'')

/-- R23: no transform turns a written cell into an unwritten one or an unwritten cell into a written one. -/
def Obligations.TransformsKeepCellsWritten : Prop :=
  ∀ (f : Lifter) (g : Geom) (l : Nat) (w w' : Work),
    decPlane f g l w = some w' ∨ recPlane f g l w = some w' →
    ∀ e, (w'.1.read e).isSome = (w.1.read e).isSome

/-- R67, which the spec derives: once pass k = l - 1 has run, the later passes of DECOMPOSE touch only the LL quadrant of
level l: every cell outside rows and columns 0 .. (512 >> l) - 1 stays as DEC(P, l) left it. -/
def Obligations.LaterPassesRewriteOnlyLL : Prop :=
  ∀ (f : Lifter) (l n : Nat) (w w' w'' : Work), l ≤ n → n ≤ 3 →
    decPlane f Config.geom l w = some w' → decPlane f Config.geom n w = some w'' →
    ∀ r c, r < 512 → c < 512 → ¬ (r < 512 >>> l ∧ c < 512 >>> l) →
      w''.1.read (r * 512 + c) = w'.1.read (r * 512 + c)

/-- R67, R66: after L ≥ 1 levels the subbands LL_L and HL_l, LH_l, HH_l for l = 1..L tile the plane exactly: each cell
lies in one and only one. Which off-diagonal quadrant is LH and which HL is the spec's decision D6 (log 18). -/
def Obligations.SubbandsTileThePlane : Prop :=
  ∀ levels r c : Nat, 1 ≤ levels → levels ≤ 3 → r < 512 → c < 512 →
    ((bandsAfter levels).filter fun b => inBand Config.geom b.1 b.2 r c).length = 1

/-- R68, R69: the canonical layout of L = 3: the rows and columns, the first cell with its offset, and the size of each of
the ten subbands. -/
def Obligations.CanonicalSubbandLayout : Prop :=
  (bandsAfter 3).length = 10 ∧
  bandOffset .ll 3 = 0x00100000 ∧ bandOffset .hl 3 = 0x00100200 ∧ bandOffset .lh 3 = 0x00140000 ∧
  bandOffset .hh 3 = 0x00140200 ∧ bandOffset .hl 2 = 0x00100400 ∧ bandOffset .lh 2 = 0x00180000 ∧
  bandOffset .hh 2 = 0x00180400 ∧ bandOffset .hl 1 = 0x00100800 ∧ bandOffset .lh 1 = 0x00200000 ∧
  bandOffset .hh 1 = 0x00200800 ∧
  bandCells Config.geom 3 = 4096 ∧ bandCells Config.geom 2 = 16384 ∧ bandCells Config.geom 1 = 65536 ∧
  ((bandsAfter 3).map fun b => bandCells Config.geom b.2).sum = 262144 ∧
  (∀ r c : Nat,
    (inBand Config.geom .ll 3 r c = true ↔ r ≤ 63 ∧ c ≤ 63) ∧
    (inBand Config.geom .hl 3 r c = true ↔ r ≤ 63 ∧ 64 ≤ c ∧ c ≤ 127) ∧
    (inBand Config.geom .lh 3 r c = true ↔ 64 ≤ r ∧ r ≤ 127 ∧ c ≤ 63) ∧
    (inBand Config.geom .hh 3 r c = true ↔ 64 ≤ r ∧ r ≤ 127 ∧ 64 ≤ c ∧ c ≤ 127) ∧
    (inBand Config.geom .hl 2 r c = true ↔ r ≤ 127 ∧ 128 ≤ c ∧ c ≤ 255) ∧
    (inBand Config.geom .lh 2 r c = true ↔ 128 ≤ r ∧ r ≤ 255 ∧ c ≤ 127) ∧
    (inBand Config.geom .hh 2 r c = true ↔ 128 ≤ r ∧ r ≤ 255 ∧ 128 ≤ c ∧ c ≤ 255) ∧
    (inBand Config.geom .hl 1 r c = true ↔ r ≤ 255 ∧ 256 ≤ c ∧ c ≤ 511) ∧
    (inBand Config.geom .lh 1 r c = true ↔ 256 ≤ r ∧ r ≤ 511 ∧ c ≤ 255) ∧
    (inBand Config.geom .hh 1 r c = true ↔ 256 ≤ r ∧ r ≤ 511 ∧ 256 ≤ c ∧ c ≤ 511)) ∧
  (∀ b, b ∈ bandsAfter 3 →
    inBand Config.geom b.1 b.2 (bandRow Config.geom b.1 b.2) (bandCol Config.geom b.1 b.2) = true ∧
    bandOffset b.1 b.2 =
      0x00100000 + 8 * (bandRow Config.geom b.1 b.2 * 512 + bandCol Config.geom b.1 b.2) ∧
    ∀ r c, inBand Config.geom b.1 b.2 r c = true →
      bandRow Config.geom b.1 b.2 ≤ r ∧ bandCol Config.geom b.1 b.2 ≤ c)

/-- R70: the codec's groups: the four cells of group q of LH3 lie in LH3 and those of HL3 in HL3, each cell of the subband
in exactly one place of one group. -/
def Obligations.CodecQuadsCoverSubbands : Prop :=
  (∀ r c : Nat, inBand Config.geom .lh 3 r c = true ↔ ∃ q j, q < 1024 ∧ j < 4 ∧ lh3Quad q j = (r, c)) ∧
  (∀ r c : Nat, inBand Config.geom .hl 3 r c = true ↔ ∃ q j, q < 1024 ∧ j < 4 ∧ hl3Quad q j = (r, c)) ∧
  (∀ q j q' j' : Nat, j < 4 → j' < 4 →
    (lh3Quad q j = lh3Quad q' j' → q = q' ∧ j = j') ∧ (hl3Quad q j = hl3Quad q' j' → q = q' ∧ j = j'))

/-! ### Reset, faults and invariants -/

/-- R39: the state after reset: every cell unwritten, STATUS, IRQ_EN and CMD read 0, SEQ idle, nothing held, irq 0. (LB is
unspecified there and nothing is said of it.) -/
def Obligations.ResetValues : Prop :=
  (∀ e, State.reset.plane.read e = none) ∧
  State.reset.status = ⟨false, false, false, 0⟩ ∧ State.reset.irqEn = ⟨false, false⟩ ∧
  State.reset.seq = .idle ∧ State.reset.held = none ∧ State.reset.irq = false ∧
  State.reset.status.word = 0 ∧ State.reset.irqEn.word = 0 ∧
  exec .rdCmd State.reset = .next { State.reset with responses := [.okay [0, 0, 0, 0]] } ∧
  Config.idValue = 0x57443244 ∧ Config.infoValue = 0x00000399

/-- R200, R201: reset at any step, whatever the block is doing: every cell unwritten, the registers and SEQ at their reset
values, so that an aborted command never completes; a held transaction completes `ERR` with no effect. -/
def Obligations.ResetStep : Prop :=
  ∀ (s : State) (sch : List Agent), s.mark = none → s.sched = .reset :: sch →
    ∃ t, step s = .next t ∧
      (∀ e, t.plane.read e = none) ∧ t.status = ⟨false, false, false, 0⟩ ∧ t.irqEn = ⟨false, false⟩ ∧
      t.seq = .idle ∧ t.held = none ∧ t.irq = false ∧ t.mark = none ∧
      t.queue = s.queue ∧ t.sched = sch ∧
      t.responses = s.responses ++ (if s.held.isSome = true then [.err] else [])

/-- R175, R202: a fault is recorded in a mark that no later step clears, reset among them; a marked run takes no step. -/
def Obligations.FaultMarkStays : Prop :=
  (∀ (s : State) (f : Fault), step s = .fault f → (recordStep s).mark = some f) ∧
  (∀ (s : State) (f : Fault) (n : Nat), s.mark = some f →
    step s = .fault f ∧ (recordRun n s).mark = some f ∧ s.resetEvent.mark = some f)

/-- The invariant holds right after reset. -/
def Obligations.ResetMeetsInv : Prop := State.reset.Inv

/-- Every step keeps the invariant: the canonical form of the plane, BUSY exactly while SEQ runs (R35), BUSY and DONE
never both and ERRCODE 0 exactly when ERR is 0 (R30), at most MAX_LEVELS levels (R35), no unwritten cell under a running
command (R111), at most 512 values in the line buffer (R36), only plane accesses held (R37). -/
def Obligations.StepKeepsInv : Prop :=
  ∀ s t : State, s.Inv → step s = .next t → t.Inv

/-- R34: every change of a STATUS flag happens in one of the places the rule lists. Which command word reached the port is
`w`; that it was accepted shows in BUSY = 1 after the step, that it was rejected in ERR = 1 with SEQ as it was. -/
def Obligations.FlagsChangeOnlyWhereListed : Prop :=
  ∀ s t : State, step s = .next t →
    (s.status.busy = false → t.status.busy = true → ∃ w op l, hostRuns s (.wrCmd w) ∧ t.seq = .run op l) ∧
    (s.status.busy = true → t.status.busy = false →
      nextAgent s = some .sequencer ∨ nextAgent s = some .reset) ∧
    (s.status.done = false → t.status.done = true → nextAgent s = some .sequencer) ∧
    (s.status.done = true → t.status.done = false →
      (∃ w, hostRuns s (.wrCmd w) ∧ t.status.busy = true) ∨ (∃ d, hostRuns s (.wrStatus d) ∧ d.getLsbD 1 = true) ∨
      nextAgent s = some .reset) ∧
    (s.status.err = false → t.status.err = true → ∃ w, hostRuns s (.wrCmd w) ∧ t.seq = s.seq) ∧
    (s.status.err = true → t.status.err = false →
      (∃ d, hostRuns s (.wrStatus d) ∧ d.getLsbD 2 = true) ∨ nextAgent s = some .reset) ∧
    (t.status.errcode ≠ s.status.errcode →
      (∃ w, hostRuns s (.wrCmd w) ∧ t.status.err = true) ∨ (∃ d, hostRuns s (.wrStatus d) ∧ d.getLsbD 2 = true) ∨
      nextAgent s = some .reset)

/-- R21: only a host plane write, the completion of a command, or reset changes the plane. -/
def Obligations.PlaneChangesOnlyWhereListed : Prop :=
  ∀ s t : State, step s = .next t → t.plane ≠ s.plane →
    (∃ cell d, hostRuns s (.planeWr cell d)) ∨ nextAgent s = some .sequencer ∨ nextAgent s = some .reset

/-- R36: the line buffer is invisible: two states that differ in it alone step alike, to states that differ in it alone. -/
def Obligations.LineBufferIsInvisible : Prop :=
  ∀ s s' : State, SameButLb s s' →
    match step s, step s' with
    | .next t, .next t' => SameButLb t t'
    | .fault f, .fault f' => f = f'
    | _, _ => False

/-- R176, R153: irq is the OR of the two enabled flags, and a register write moves it in its own step: enabling DONE_IE
while DONE = 1 raises it, and acknowledging both flags drops it. -/
def Obligations.IrqFollowsFlags : Prop :=
  (∀ s : State, s.irq = true ↔
    (s.status.done = true ∧ s.irqEn.doneIe = true) ∨ (s.status.err = true ∧ s.irqEn.errIe = true)) ∧
  (∀ s : State, s.status.done = true → ∃ t, exec (.wrIrqEn 1) s = .next t ∧ t.irq = true) ∧
  (∀ s : State, ∃ t, exec (.wrStatus 6) s = .next t ∧ t.irq = false)

/-! ### How an instruction is placed, and the host notation -/

/-- The model's own convention (log 11, log 12): after reset, the very next step runs the instruction that a number of the
opcode table decodes to. -/
def Obligations.PlacedWordRunsNext : Prop :=
  ∀ (w : Nat) (i : Instr), decodeTableWord 32 w = some i →
    step (State.reset.withFetchWord 32 w) = exec i State.reset

/-- R90: the response of a read goes zero-extended to the temporary it names; a transaction that completes `ERR` leaves
every temporary unchanged; the program continues with the next line either way. -/
def Obligations.HostNotationResponses : Prop :=
  ∀ (y : System) (b : State) (wait : Waiting) (r : Response),
    y.waiting = some wait → step y.block = .next b → b.responses = y.block.responses ++ [r] →
    ∃ z, systemStep y = .next z ∧ z.block = b ∧ z.prog = y.prog ∧ z.waiting = none ∧ z.line = y.line + 1 ∧
      (r = .err → z.tmps = y.tmps) ∧
      (∀ (n : Tmp) (data : List Byte), wait = .read n → r = .okay data →
        z.tmp n = valOfLanes data ∧ ∀ m, m ≠ n → z.tmp m = y.tmp m)
end

