-- ==== Sys2Proof/Laws/Lanes.lean ====
section
/-! SUPPORT. Byte lanes: their number, each lane's bits, and that lanes put together give the value back, both ways. -/

namespace Sys2Proof

@[simp] theorem lanes_length {m : Nat} (n : Nat) (v : BitVec m) : (lanes n v).length = n := by simp [lanes]

theorem lanes_getElem? {m : Nat} (n : Nat) (v : BitVec m) (j : Nat) (h : j < n) :
    (lanes n v)[j]? = some (v.extractLsb' (8 * j) 8) := by simp [lanes, h]

theorem lanesNat_lt (bs : List Byte) : lanesNat bs < 256 ^ bs.length := by
  induction bs with
  | nil => simp [lanesNat]
  | cons b bs ih =>
    have hb := b.isLt
    simp only [lanesNat, List.length_cons, pow_succ]
    omega

/-- The lowest lane of a value and the lanes of the rest. -/
theorem lanes_succ {m : Nat} (n : Nat) (v : BitVec m) :
    lanes (n + 1) v = v.setWidth 8 :: lanes n (v >>> 8) := by
  simp only [lanes, List.range_succ_eq_map, List.map_cons, List.map_map, List.cons.injEq]
  constructor
  · simp [BitVec.extractLsb']
  · apply List.map_congr_left
    intro j _
    apply BitVec.eq_of_toNat_eq
    simp [BitVec.extractLsb'_toNat, Nat.shiftRight_add, Nat.mul_add, Nat.add_comm]

theorem lanesNat_lanes {m : Nat} (n : Nat) (v : BitVec m) : lanesNat (lanes n v) = v.toNat % 256 ^ n := by
  induction n generalizing v with
  | zero => simp [lanes, lanesNat, Nat.mod_one]
  | succ n ih =>
    rw [lanes_succ, lanesNat, ih]
    simp only [BitVec.toNat_setWidth, BitVec.toNat_ushiftRight, Nat.shiftRight_eq_div_pow]
    have h : v.toNat % 256 ^ (n + 1) = v.toNat % 256 + 256 * (v.toNat / 256 % 256 ^ n) := by
      rw [pow_succ']
      exact Nat.mod_mul
    exact h.symm

@[simp] theorem wordOfLanes_lanes (w : Word) : wordOfLanes (lanes 4 w) = w := by
  have := w.isLt
  apply BitVec.eq_of_toNat_eq
  rw [wordOfLanes, lanesNat_lanes, BitVec.toNat_ofNat]
  omega

@[simp] theorem valOfLanes_lanes (v : Val) : valOfLanes (lanes 8 v) = v := by
  have := v.isLt
  apply BitVec.eq_of_toNat_eq
  rw [valOfLanes, lanesNat_lanes, BitVec.toNat_ofNat]
  omega

/-- Lanes are determined by the number they carry. -/
theorem lanesNat_inj : ∀ {bs cs : List Byte}, bs.length = cs.length → lanesNat bs = lanesNat cs → bs = cs
  | [], [], _, _ => rfl
  | b :: bs, c :: cs, hl, h => by
    have hb := b.isLt
    have hc := c.isLt
    simp only [lanesNat] at h
    have h1 : b = c := BitVec.eq_of_toNat_eq (by omega)
    have h2 : lanesNat bs = lanesNat cs := by omega
    rw [h1, lanesNat_inj (by simpa using hl) h2]

theorem lanes_ofNat_lanesNat {m n : Nat} (bs : List Byte) (hl : bs.length = n) (hm : 256 ^ n ≤ 2 ^ m) :
    lanes n (BitVec.ofNat m (lanesNat bs)) = bs := by
  have h := lanesNat_lt bs
  rw [hl] at h
  refine lanesNat_inj (by simp [hl]) ?_
  rw [lanesNat_lanes, BitVec.toNat_ofNat, Nat.mod_eq_of_lt (h.trans_le hm), Nat.mod_eq_of_lt h]

theorem lanes_wordOfLanes (bs : List Byte) (h : bs.length = 4) : lanes 4 (wordOfLanes bs) = bs :=
  lanes_ofNat_lanesNat bs h (by norm_num)

theorem lanes_valOfLanes (bs : List Byte) (h : bs.length = 8) : lanes 8 (valOfLanes bs) = bs :=
  lanes_ofNat_lanesNat bs h (by norm_num)

end Sys2Proof
end

