-- ==== Sys2Proof/Laws/Memory.lean ====
section
/-! SUPPORT. The laws of the plane: read after write, the canonical form and that every operation keeps it, and that
planes in canonical form with equal cells are equal. -/

namespace Sys2Proof.Machine

/-! ### Read and write -/

@[simp] theorem Memory.read_nil (e : Nat) : Memory.read [] e = none := rfl

theorem Memory.read_cons (k : Nat) (v : Val) (m : Memory) (e : Nat) :
    Memory.read ((k, v) :: m) e = if k = e then some v else Memory.read m e := rfl

@[simp] theorem Memory.read_write_same (m : Memory) (e : Nat) (v : Val) : (m.write e v).read e = some v := by
  induction m with
  | nil => simp [Memory.write, Memory.read_cons]
  | cons p m ih =>
    obtain ⟨k, u⟩ := p
    unfold Memory.write
    split
    · simp [Memory.read_cons]
    · split
      · simp [Memory.read_cons]
      · have : k ≠ e := fun h => by simp_all
        simp [Memory.read_cons, this, ih]

theorem Memory.read_write_other (m : Memory) {e e' : Nat} (v : Val) (h : e' ≠ e) :
    (m.write e v).read e' = m.read e' := by
  induction m with
  | nil => simp [Memory.write, Memory.read_cons, Ne.symm h]
  | cons p m ih =>
    obtain ⟨k, u⟩ := p
    unfold Memory.write
    split
    · simp [Memory.read_cons, Ne.symm h]
    · split
      · rename_i hk
        subst hk
        simp [Memory.read_cons, Ne.symm h]
      · simp [Memory.read_cons, ih]

theorem Memory.read_write (m : Memory) (e e' : Nat) (v : Val) :
    (m.write e v).read e' = if e' = e then some v else m.read e' := by
  split
  · subst_vars; simp
  · exact Memory.read_write_other m v ‹_›

/-! ### The canonical form -/

theorem Memory.wfIn_iff (n : Nat) (m : Memory) :
    m.wfIn n = true ↔ (m.map Prod.fst).Pairwise (· < ·) ∧ ∀ p ∈ m, p.1 < n := by
  simp [Memory.wfIn]

@[simp] theorem Memory.wfIn_nil (n : Nat) : Memory.wfIn n [] = true := rfl

theorem Memory.wfIn_cons (n k : Nat) (v : Val) (m : Memory) :
    Memory.wfIn n ((k, v) :: m) = true ↔ k < n ∧ (∀ p ∈ m, k < p.1) ∧ m.wfIn n = true := by
  simp [Memory.wfIn_iff]
  tauto

theorem Memory.mem_write {m : Memory} {e : Nat} {v : Val} {p : Nat × Val} (h : p ∈ m.write e v) :
    p = (e, v) ∨ p ∈ m := by
  induction m with
  | nil => simpa [Memory.write] using h
  | cons q m ih =>
    obtain ⟨k, u⟩ := q
    unfold Memory.write at h
    split at h
    · simpa using h
    · split at h
      · rcases List.mem_cons.mp h with h | h
        · exact .inl h
        · exact .inr (List.mem_cons_of_mem _ h)
      · rcases List.mem_cons.mp h with h | h
        · exact .inr (h ▸ List.mem_cons_self)
        · exact (ih h).imp id (List.mem_cons_of_mem _)

/-- A write keeps the canonical form. -/
theorem Memory.wfIn_write {n : Nat} {m : Memory} {e : Nat} (v : Val) (hm : m.wfIn n = true) (he : e < n) :
    (m.write e v).wfIn n = true := by
  induction m with
  | nil => simp [Memory.write, Memory.wfIn_cons, he]
  | cons p m ih =>
    obtain ⟨k, u⟩ := p
    obtain ⟨hk, hlt, hm'⟩ := (Memory.wfIn_cons n k u m).mp hm
    unfold Memory.write
    split
    · rename_i hek
      refine (Memory.wfIn_cons ..).mpr ⟨he, ?_, hm⟩
      intro p hp
      rcases List.mem_cons.mp hp with rfl | hp
      · exact hek
      · exact hek.trans (hlt p hp)
    · split
      · rename_i hek
        subst hek
        exact (Memory.wfIn_cons ..).mpr ⟨hk, hlt, hm'⟩
      · refine (Memory.wfIn_cons ..).mpr ⟨hk, ?_, ih hm'⟩
        intro p hp
        rcases Memory.mem_write hp with rfl | hp
        · dsimp only; omega
        · exact hlt p hp

theorem Memory.read_eq_none_of_lt {m : Memory} {e : Nat} (h : ∀ p ∈ m, e < p.1) : m.read e = none := by
  induction m with
  | nil => rfl
  | cons p m ih =>
    obtain ⟨k, u⟩ := p
    have hk : e < k := h (k, u) List.mem_cons_self
    rw [Memory.read_cons, if_neg (by omega)]
    exact ih fun p hp => h p (List.mem_cons_of_mem _ hp)

/-- A written cell of a plane in canonical form is a cell of that plane. -/
theorem Memory.lt_of_read {n e : Nat} {m : Memory} (hm : m.wfIn n = true) (h : (m.read e).isSome = true) : e < n := by
  induction m with
  | nil => simp at h
  | cons p m ih =>
    obtain ⟨k, v⟩ := p
    obtain ⟨hk, -, hm⟩ := (Memory.wfIn_cons ..).mp hm
    rw [Memory.read_cons] at h
    split at h
    · subst_vars
      exact hk
    · exact ih hm h

/-- Planes in canonical form that agree on every cell are equal as data. -/
theorem Memory.ext_of_read {n n' : Nat} {m m' : Memory} (hm : m.wfIn n = true) (hm' : m'.wfIn n' = true)
    (h : ∀ e, m.read e = m'.read e) : m = m' := by
  induction m generalizing m' with
  | nil =>
    cases m' with
    | nil => rfl
    | cons p m' =>
      obtain ⟨k, u⟩ := p
      have := h k
      simp [Memory.read_cons] at this
  | cons p m ih =>
    obtain ⟨k, u⟩ := p
    obtain ⟨-, hlt, hm⟩ := (Memory.wfIn_cons n k u m).mp hm
    cases m' with
    | nil =>
      have := h k
      simp [Memory.read_cons] at this
    | cons p' m' =>
      obtain ⟨k', u'⟩ := p'
      obtain ⟨-, hlt', htl'⟩ := (Memory.wfIn_cons n' k' u' m').mp hm'
      have hkk : k = k' := by
        rcases Nat.lt_trichotomy k k' with hc | hc | hc
        · have h1 := h k
          rw [Memory.read_cons, if_pos rfl, Memory.read_cons, if_neg (by omega),
            Memory.read_eq_none_of_lt fun p hp => hc.trans (hlt' p hp)] at h1
          cases h1
        · exact hc
        · have h1 := h k'
          rw [Memory.read_cons, if_neg (by omega), Memory.read_cons, if_pos rfl,
            Memory.read_eq_none_of_lt fun p hp => hc.trans (hlt p hp)] at h1
          cases h1
      subst hkk
      have huu : u = u' := by
        have h1 := h k
        simpa [Memory.read_cons] using h1
      subst huu
      congr 1
      refine ih hm htl' fun e => ?_
      by_cases hek : k = e
      · subst hek
        rw [Memory.read_eq_none_of_lt hlt, Memory.read_eq_none_of_lt hlt']
      · have h1 := h e
        simpa [Memory.read_cons, hek] using h1

@[simp] theorem Memory.wf_nil : Memory.wf [] = true := rfl

theorem Memory.wf_write {m : Memory} {e : Nat} (v : Val) (hm : m.wf = true) (he : e < Config.cells) :
    (m.write e v).wf = true := Memory.wfIn_write v hm he

/-! ### Written cells -/

theorem allBelow_iff (p : Nat → Bool) (n : Nat) : allBelow p n = true ↔ ∀ e, e < n → p e = true := by
  induction n with
  | zero => simp [allBelow]
  | succ n ih =>
    simp only [allBelow, Bool.and_eq_true, ih]
    constructor
    · rintro ⟨h1, h2⟩ e he
      rcases Nat.lt_succ_iff_lt_or_eq.mp he with he | rfl
      · exact h2 e he
      · exact h1
    · exact fun h => ⟨h n (by omega), fun e he => h e (by omega)⟩

theorem Memory.allWrittenIn_iff (n : Nat) (m : Memory) :
    m.allWrittenIn n = true ↔ ∀ e, e < n → (m.read e).isSome = true := allBelow_iff _ _

end Sys2Proof.Machine
end

