-- ==== Sys2Proof/Laws/State.lean ====
section
/-! SUPPORT. One lemma per field and update of State: what each named update of the state leaves in each field. -/

namespace Sys2Proof.Machine

section respond
variable (r : Response) (s : State)

@[simp] theorem State.respond_plane : (s.respond r).plane = s.plane := rfl
@[simp] theorem State.respond_status : (s.respond r).status = s.status := rfl
@[simp] theorem State.respond_irqEn : (s.respond r).irqEn = s.irqEn := rfl
@[simp] theorem State.respond_seq : (s.respond r).seq = s.seq := rfl
@[simp] theorem State.respond_lb : (s.respond r).lb = s.lb := rfl
@[simp] theorem State.respond_held : (s.respond r).held = s.held := rfl
@[simp] theorem State.respond_mark : (s.respond r).mark = s.mark := rfl
@[simp] theorem State.respond_queue : (s.respond r).queue = s.queue := rfl
@[simp] theorem State.respond_sched : (s.respond r).sched = s.sched := rfl
@[simp] theorem State.respond_responses : (s.respond r).responses = s.responses ++ [r] := rfl

@[simp] theorem State.okay_eq : s.okay = s.respond (.okay []) := rfl
@[simp] theorem State.okayWord_eq (w : Word) : s.okayWord w = s.respond (.okay (lanes 4 w)) := rfl
@[simp] theorem State.busError_eq : s.busError = s.respond .err := rfl

end respond

section hold
variable (t : Txn) (s : State)

@[simp] theorem State.hold_plane : (s.hold t).plane = s.plane := rfl
@[simp] theorem State.hold_status : (s.hold t).status = s.status := rfl
@[simp] theorem State.hold_irqEn : (s.hold t).irqEn = s.irqEn := rfl
@[simp] theorem State.hold_seq : (s.hold t).seq = s.seq := rfl
@[simp] theorem State.hold_lb : (s.hold t).lb = s.lb := rfl
@[simp] theorem State.hold_held : (s.hold t).held = some t := rfl
@[simp] theorem State.hold_mark : (s.hold t).mark = s.mark := rfl
@[simp] theorem State.hold_queue : (s.hold t).queue = s.queue := rfl
@[simp] theorem State.hold_sched : (s.hold t).sched = s.sched := rfl
@[simp] theorem State.hold_responses : (s.hold t).responses = s.responses := rfl

end hold

section reject
variable (code : BitVec 4) (s : State)

@[simp] theorem State.reject_plane : (s.reject code).plane = s.plane := rfl
@[simp] theorem State.reject_busy : (s.reject code).status.busy = s.status.busy := rfl
@[simp] theorem State.reject_done : (s.reject code).status.done = s.status.done := rfl
@[simp] theorem State.reject_err : (s.reject code).status.err = true := rfl
@[simp] theorem State.reject_errcode : (s.reject code).status.errcode = code := rfl
@[simp] theorem State.reject_irqEn : (s.reject code).irqEn = s.irqEn := rfl
@[simp] theorem State.reject_seq : (s.reject code).seq = s.seq := rfl
@[simp] theorem State.reject_lb : (s.reject code).lb = s.lb := rfl
@[simp] theorem State.reject_held : (s.reject code).held = s.held := rfl
@[simp] theorem State.reject_mark : (s.reject code).mark = s.mark := rfl
@[simp] theorem State.reject_queue : (s.reject code).queue = s.queue := rfl
@[simp] theorem State.reject_sched : (s.reject code).sched = s.sched := rfl
@[simp] theorem State.reject_responses : (s.reject code).responses = s.responses := rfl

end reject

section acknowledge
variable (d : Word) (s : State)

@[simp] theorem State.acknowledge_plane : (s.acknowledge d).plane = s.plane := rfl
@[simp] theorem State.acknowledge_busy : (s.acknowledge d).status.busy = s.status.busy := rfl
@[simp] theorem State.acknowledge_done :
    (s.acknowledge d).status.done = if d.getLsbD 1 then false else s.status.done := rfl
@[simp] theorem State.acknowledge_err :
    (s.acknowledge d).status.err = if d.getLsbD 2 then false else s.status.err := rfl
@[simp] theorem State.acknowledge_errcode :
    (s.acknowledge d).status.errcode = if d.getLsbD 2 then 0 else s.status.errcode := rfl
@[simp] theorem State.acknowledge_irqEn : (s.acknowledge d).irqEn = s.irqEn := rfl
@[simp] theorem State.acknowledge_seq : (s.acknowledge d).seq = s.seq := rfl
@[simp] theorem State.acknowledge_lb : (s.acknowledge d).lb = s.lb := rfl
@[simp] theorem State.acknowledge_held : (s.acknowledge d).held = s.held := rfl
@[simp] theorem State.acknowledge_mark : (s.acknowledge d).mark = s.mark := rfl
@[simp] theorem State.acknowledge_queue : (s.acknowledge d).queue = s.queue := rfl
@[simp] theorem State.acknowledge_sched : (s.acknowledge d).sched = s.sched := rfl
@[simp] theorem State.acknowledge_responses : (s.acknowledge d).responses = s.responses := rfl

end acknowledge

section accept
variable (op : Op) (l : Nat) (s : State)

@[simp] theorem State.accept_plane : (s.accept op l).plane = s.plane := rfl
@[simp] theorem State.accept_busy : (s.accept op l).status.busy = true := rfl
@[simp] theorem State.accept_done : (s.accept op l).status.done = false := rfl
@[simp] theorem State.accept_err : (s.accept op l).status.err = s.status.err := rfl
@[simp] theorem State.accept_errcode : (s.accept op l).status.errcode = s.status.errcode := rfl
@[simp] theorem State.accept_irqEn : (s.accept op l).irqEn = s.irqEn := rfl
@[simp] theorem State.accept_seq : (s.accept op l).seq = .run op l := rfl
@[simp] theorem State.accept_lb : (s.accept op l).lb = s.lb := rfl
@[simp] theorem State.accept_held : (s.accept op l).held = s.held := rfl
@[simp] theorem State.accept_mark : (s.accept op l).mark = s.mark := rfl
@[simp] theorem State.accept_queue : (s.accept op l).queue = s.queue := rfl
@[simp] theorem State.accept_sched : (s.accept op l).sched = s.sched := rfl
@[simp] theorem State.accept_responses : (s.accept op l).responses = s.responses := rfl

end accept

section finish
variable (w : Work) (s : State)

@[simp] theorem State.finish_plane : (s.finish w).plane = w.1 := rfl
@[simp] theorem State.finish_busy : (s.finish w).status.busy = false := rfl
@[simp] theorem State.finish_done : (s.finish w).status.done = true := rfl
@[simp] theorem State.finish_err : (s.finish w).status.err = s.status.err := rfl
@[simp] theorem State.finish_errcode : (s.finish w).status.errcode = s.status.errcode := rfl
@[simp] theorem State.finish_irqEn : (s.finish w).irqEn = s.irqEn := rfl
@[simp] theorem State.finish_seq : (s.finish w).seq = .idle := rfl
@[simp] theorem State.finish_lb : (s.finish w).lb = w.2 := rfl
@[simp] theorem State.finish_held : (s.finish w).held = s.held := rfl
@[simp] theorem State.finish_mark : (s.finish w).mark = s.mark := rfl
@[simp] theorem State.finish_queue : (s.finish w).queue = s.queue := rfl
@[simp] theorem State.finish_sched : (s.finish w).sched = s.sched := rfl
@[simp] theorem State.finish_responses : (s.finish w).responses = s.responses := rfl

end finish

section resetEvent
variable (s : State)

@[simp] theorem State.resetEvent_plane : s.resetEvent.plane = [] := rfl
@[simp] theorem State.resetEvent_status : s.resetEvent.status = ⟨false, false, false, 0⟩ := rfl
@[simp] theorem State.resetEvent_irqEn : s.resetEvent.irqEn = ⟨false, false⟩ := rfl
@[simp] theorem State.resetEvent_seq : s.resetEvent.seq = .idle := rfl
@[simp] theorem State.resetEvent_lb : s.resetEvent.lb = [] := rfl
@[simp] theorem State.resetEvent_held : s.resetEvent.held = none := rfl
@[simp] theorem State.resetEvent_mark : s.resetEvent.mark = s.mark := rfl
@[simp] theorem State.resetEvent_queue : s.resetEvent.queue = s.queue := rfl
@[simp] theorem State.resetEvent_sched : s.resetEvent.sched = s.sched := rfl
theorem State.resetEvent_responses :
    s.resetEvent.responses = match s.held with
      | some _ => s.responses ++ [.err]
      | none => s.responses := rfl

end resetEvent

section tick
variable (s : State)

@[simp] theorem State.tick_plane : s.tick.plane = s.plane := rfl
@[simp] theorem State.tick_status : s.tick.status = s.status := rfl
@[simp] theorem State.tick_irqEn : s.tick.irqEn = s.irqEn := rfl
@[simp] theorem State.tick_seq : s.tick.seq = s.seq := rfl
@[simp] theorem State.tick_lb : s.tick.lb = s.lb := rfl
@[simp] theorem State.tick_held : s.tick.held = s.held := rfl
@[simp] theorem State.tick_mark : s.tick.mark = s.mark := rfl
@[simp] theorem State.tick_queue : s.tick.queue = s.queue := rfl
@[simp] theorem State.tick_sched : s.tick.sched = s.sched.tail := rfl
@[simp] theorem State.tick_responses : s.tick.responses = s.responses := rfl

end tick

end Sys2Proof.Machine
end

