-- ==== Sys2Proof/Laws/Exec.lean ====
section
/-! SUPPORT. What each shared operation and each instruction can do: one inversion lemma for acceptance, one for exec, one
for the bus decoder. -/

namespace Sys2Proof.Machine

/-- What a DECOMPOSE or RECONSTRUCT can answer with a next state (R110). -/
theorem startTransform_cases {op : Op} {levels : BitVec 4} {s t : State} (h : startTransform op levels s = .next t) :
    (s.status.busy = true ∧ t = (s.reject cmdWhileBusy).respond (.okay [])) ∨
    (s.status.busy = false ∧ 3 < levels.toNat ∧ t = (s.reject badLevels).respond (.okay [])) ∨
    (s.status.busy = false ∧ levels.toNat ≤ 3 ∧ (1 ≤ levels.toNat → s.plane.allWritten = true) ∧
      t = (s.accept op levels.toNat).respond (.okay [])) := by
  unfold startTransform at h
  by_cases hb : s.status.busy = true
  · rw [if_pos hb] at h
    exact .inl ⟨hb, by simpa using h.symm⟩
  · rw [if_neg hb] at h
    by_cases hl : levelsOf levels > Config.maxLevels
    · rw [if_pos hl] at h
      exact .inr (.inl ⟨eq_false_of_ne_true hb, hl, by simpa using h.symm⟩)
    · rw [if_neg hl] at h
      split at h
      · cases h
      · rename_i hw
        exact .inr (.inr ⟨eq_false_of_ne_true hb, Nat.le_of_not_lt hl, fun h1 => by
          simpa [levelsOf, h1] using hw,
          by simpa [levelsOf] using h.symm⟩)

theorem startTransform_not_refused {op : Op} {levels : BitVec 4} {s : State} {r : Refusal} :
    startTransform op levels s ≠ .refused r := by
  unfold startTransform
  split
  · simp
  · split
    · simp
    · split <;> simp

/-- What an illegal command word does (R85). -/
theorem rejectIllegal_cases {s t : State} (h : rejectIllegal s = .next t) :
    ∃ code, (code = cmdWhileBusy ∨ code = badOpcode) ∧ t = (s.reject code).respond (.okay []) := by
  unfold rejectIllegal at h
  split at h
  · exact ⟨_, .inl rfl, by simpa using h.symm⟩
  · exact ⟨_, .inr rfl, by simpa using h.symm⟩

/-- What a write to CMD can answer with a next state (R110). -/
theorem execWrCmd_cases {w : Word} {s t : State} (h : execWrCmd w s = .next t) :
    t = s.respond (.okay []) ∨
    (∃ code, (code = cmdWhileBusy ∨ code = badOpcode ∨ code = badLevels) ∧ t = (s.reject code).respond (.okay [])) ∨
    (∃ op l, s.status.busy = false ∧ l ≤ 3 ∧ (1 ≤ l → s.plane.allWritten = true) ∧
      t = (s.accept op l).respond (.okay [])) := by
  unfold execWrCmd at h
  split at h
  · exact .inl (by simpa [execNop] using h.symm)
  · rcases startTransform_cases h with ⟨-, rfl⟩ | ⟨-, -, rfl⟩ | ⟨hb, hl, hw, rfl⟩
    · exact .inr (.inl ⟨_, .inl rfl, rfl⟩)
    · exact .inr (.inl ⟨_, .inr (.inr rfl), rfl⟩)
    · exact .inr (.inr ⟨_, _, hb, hl, hw, rfl⟩)
  · rcases startTransform_cases h with ⟨-, rfl⟩ | ⟨-, -, rfl⟩ | ⟨hb, hl, hw, rfl⟩
    · exact .inr (.inl ⟨_, .inl rfl, rfl⟩)
    · exact .inr (.inl ⟨_, .inr (.inr rfl), rfl⟩)
    · exact .inr (.inr ⟨_, _, hb, hl, hw, rfl⟩)
  · obtain ⟨code, hc, rfl⟩ := rejectIllegal_cases h
    exact .inr (.inl ⟨code, hc.imp id .inl, rfl⟩)

/-- What a plane read can answer with a next state (R147). -/
theorem execPlaneRd_cases {cell : BitVec 19} {s t : State} (h : execPlaneRd cell s = .next t) :
    (planeFieldOk cell = false ∧ t = s.respond .err) ∨
    (planeFieldOk cell = true ∧ s.status.busy = true ∧ t = s.hold (planeReadTxn cell)) ∨
    (∃ v, planeFieldOk cell = true ∧ s.status.busy = false ∧ s.plane.read (cellIndex cell) = some v ∧
      t = s.respond (.okay (lanes 8 v))) := by
  unfold execPlaneRd at h
  split at h
  · split at h
    · exact .inr (.inl ⟨‹_›, ‹_›, by simpa using h.symm⟩)
    · split at h
      · cases h
      · exact .inr (.inr ⟨_, ‹_›, eq_false_of_ne_true ‹_›, ‹_›, by simpa using h.symm⟩)
  · exact .inl ⟨eq_false_of_ne_true ‹_›, by simpa using h.symm⟩

/-- What a plane write can answer with a next state (R148). -/
theorem execPlaneWr_cases {cell : BitVec 19} {d : Val} {s t : State} (h : execPlaneWr cell d s = .next t) :
    (planeFieldOk cell = false ∧ t = s.respond .err) ∨
    (planeFieldOk cell = true ∧ s.status.busy = true ∧ t = s.hold (planeWriteTxn cell d)) ∨
    (planeFieldOk cell = true ∧ s.status.busy = false ∧
      t = { s with plane := s.plane.write (cellIndex cell) d, responses := s.responses ++ [.okay []] }) := by
  unfold execPlaneWr at h
  split at h
  · split at h
    · exact .inr (.inl ⟨‹_›, ‹_›, by simpa using h.symm⟩)
    · refine .inr (.inr ⟨‹_›, eq_false_of_ne_true ‹_›, ?_⟩)
      injection h with h
      exact h.symm
  · exact .inl ⟨eq_false_of_ne_true ‹_›, by simpa using h.symm⟩

/-- No instruction is refused. -/
theorem exec_not_refused (i : Instr) (s : State) (r : Refusal) : exec i s ≠ .refused r := by
  cases i with
  | decompose l => exact startTransform_not_refused
  | reconstruct l => exact startTransform_not_refused
  | wrCmd w =>
    simp only [exec, execWrCmd]
    split
    · simp [execNop]
    · exact startTransform_not_refused
    · exact startTransform_not_refused
    · unfold rejectIllegal
      split <;> simp
  | planeRd cell =>
    simp only [exec, execPlaneRd]
    split
    · split
      · simp
      · split <;> simp
    · simp
  | planeWr cell d =>
    simp only [exec, execPlaneWr]
    split
    · split <;> simp
    · simp
  | nop _ | rdId | wrId _ | rdInfo | wrInfo _ | rdCmd | rdStatus | wrStatus _ | rdIrqEn | wrIrqEn _ =>
    simp [exec, execNop, execRdId, execWrId, execRdInfo, execWrInfo, execRdCmd, execRdStatus, execWrStatus, execRdIrqEn,
      execWrIrqEn]

/-! ### The command decoder -/

/-- The fields of an encoded command word (R81). -/
theorem cmdWord_fields (op : BitVec 2) (l : BitVec 4) :
    cmdRsv0 (cmdWord op l) = 0#2 ∧ cmdRsv1 (cmdWord op l) = 0#24 ∧ cmdOp (cmdWord op l) = op ∧
      cmdLevels (cmdWord op l) = l := by
  revert op l
  decide

@[simp] theorem cmdRsv0_cmdWord (op : BitVec 2) (l : BitVec 4) : cmdRsv0 (cmdWord op l) = 0#2 := (cmdWord_fields op l).1

@[simp] theorem cmdRsv1_cmdWord (op : BitVec 2) (l : BitVec 4) : cmdRsv1 (cmdWord op l) = 0#24 :=
  (cmdWord_fields op l).2.1

@[simp] theorem cmdOp_cmdWord (op : BitVec 2) (l : BitVec 4) : cmdOp (cmdWord op l) = op := (cmdWord_fields op l).2.2.1

@[simp] theorem cmdLevels_cmdWord (op : BitVec 2) (l : BitVec 4) : cmdLevels (cmdWord op l) = l :=
  (cmdWord_fields op l).2.2.2

/-- What kind a word is, by its fields (R83, R85). -/
theorem cmdKind_nop {w : Word} : cmdKind w = .nop ↔ cmdRsv0 w = 0#2 ∧ cmdRsv1 w = 0#24 ∧ cmdOp w = 0#2 := by
  unfold cmdKind
  split_ifs <;> simp_all

theorem cmdKind_decompose {w : Word} : cmdKind w = .decompose ↔ cmdRsv0 w = 0#2 ∧ cmdRsv1 w = 0#24 ∧ cmdOp w = 1#2 := by
  unfold cmdKind
  split_ifs <;> simp_all

theorem cmdKind_reconstruct {w : Word} :
    cmdKind w = .reconstruct ↔ cmdRsv0 w = 0#2 ∧ cmdRsv1 w = 0#24 ∧ cmdOp w = 2#2 := by
  unfold cmdKind
  split_ifs <;> simp_all

/-- A word with its reserved fields 0 is the encoding of its fields. -/
theorem cmdWord_of_fields {w : Word} (h0 : cmdRsv0 w = 0#2) (h1 : cmdRsv1 w = 0#24) :
    cmdWord (cmdOp w) (cmdLevels w) = w := by
  ext j hj
  have hj' : j < 32 := hj
  have e0 := fun k => congrArg (fun x => x.getLsbD k) h0
  have e1 := fun k => congrArg (fun x => x.getLsbD k) h1
  simp only [cmdRsv0, cmdRsv1, BitVec.getLsbD_extractLsb'] at e0 e1
  have e0' := e0 (j - 2)
  have e1' := e1 (j - 8)
  rw [← BitVec.getLsbD_eq_getElem, ← BitVec.getLsbD_eq_getElem]
  simp only [cmdWord, cmdOp, cmdLevels, BitVec.getLsbD_append, BitVec.getLsbD_extractLsb', BitVec.getLsbD_zero]
  interval_cases j <;> simp_all

/-! ### The bus decoder -/

theorem inRegs_iff (a : Word) : inRegs a = true ↔ a.toNat < 0x14 := decide_eq_true_iff

theorem inPlane_iff (a : Word) : inPlane a = true ↔ 0x100000 ≤ a.toNat ∧ a.toNat < 0x300000 := by
  unfold inPlane
  rw [Bool.and_eq_true]
  exact and_congr decide_eq_true_iff decide_eq_true_iff

/-- The access check lets through exactly the aligned register offsets with size 4 and the aligned plane offsets with
size 8 (R51, R55). -/
theorem checkAccess_ok {a : Word} {n : Nat} {b : Bool} (h : checkAccess a n = .ok b) :
    (b = true ∧ n = 4 ∧ a.toNat < 0x14 ∧ a.toNat % 4 = 0) ∨
    (b = false ∧ n = 8 ∧ 0x100000 ≤ a.toNat ∧ a.toNat < 0x300000 ∧ a.toNat % 8 = 0) := by
  unfold checkAccess at h
  split at h
  · split at h
    · cases h
    · split at h
      · cases h
      · rename_i hr hn ha
        injection h with h
        exact .inl ⟨h.symm, not_not.mp hn, (inRegs_iff a).mp hr, not_not.mp ha⟩
  · split at h
    · split at h
      · cases h
      · split at h
        · cases h
        · rename_i hp hn ha
          injection h with h
          obtain ⟨h1, h2⟩ := (inPlane_iff a).mp hp
          exact .inr ⟨h.symm, not_not.mp hn, h1, h2, not_not.mp ha⟩
    · cases h

theorem planeField_toNat {a : Word} (h : a.toNat < 0x300000) : (planeField a).toNat = a.toNat / 8 := by
  simp only [planeField, BitVec.extractLsb'_toNat, Nat.shiftRight_eq_div_pow]
  omega

theorem planeAddr_toNat (cell : BitVec 19) : (planeAddr cell).toNat = 8 * cell.toNat := by
  have := cell.isLt
  simp only [planeAddr, BitVec.toNat_append, BitVec.toNat_ofNat, Nat.shiftLeft_eq]
  simp
  omega

theorem planeFieldOk_iff (cell : BitVec 19) :
    planeFieldOk cell = true ↔ 0x20000 ≤ cell.toNat ∧ cell.toNat ≤ 0x5FFFF := by
  simp [planeFieldOk]

theorem planeFieldOk_planeField {a : Word} (h1 : 0x100000 ≤ a.toNat) (h2 : a.toNat < 0x300000) :
    planeFieldOk (planeField a) = true := by
  rw [planeFieldOk_iff, planeField_toNat h2]
  omega

theorem planeAddr_planeField {a : Word} (h : a.toNat < 0x300000) (h8 : a.toNat % 8 = 0) :
    planeAddr (planeField a) = a := by
  apply BitVec.eq_of_toNat_eq
  rw [planeAddr_toNat, planeField_toNat h]
  omega

theorem cellIndex_lt {cell : BitVec 19} (h : planeFieldOk cell = true) : cellIndex cell < Config.cells := by
  have h2 := ((planeFieldOk_iff cell).mp h).2
  have h3 : cell.toNat - 131072 < 262144 := by omega
  exact h3

theorem checkAccess_planeAddr {cell : BitVec 19} (h : planeFieldOk cell = true) :
    checkAccess (planeAddr cell) 8 = .ok false := by
  rw [planeFieldOk_iff] at h
  have h1 : ¬ inRegs (planeAddr cell) = true := by
    rw [inRegs_iff, planeAddr_toNat]
    omega
  have h2 : inPlane (planeAddr cell) = true := by
    rw [inPlane_iff, planeAddr_toNat]
    omega
  simp [checkAccess, h1, h2, planeAddr_toNat]

theorem planeField_planeAddr (cell : BitVec 19) : planeField (planeAddr cell) = cell := by
  apply BitVec.eq_of_toNat_eq
  have := cell.isLt
  simp only [planeField, BitVec.extractLsb'_toNat, Nat.shiftRight_eq_div_pow, planeAddr_toNat]
  omega

theorem decodeTxn_planeReadTxn {cell : BitVec 19} (h : planeFieldOk cell = true) :
    decodeTxn (planeReadTxn cell) = .ok (.planeRd cell) := by
  simp [decodeTxn, planeReadTxn, checkAccess_planeAddr h, planeField_planeAddr]

theorem decodeTxn_planeWriteTxn {cell : BitVec 19} (d : Val) (h : planeFieldOk cell = true) :
    decodeTxn (planeWriteTxn cell d) = .ok (.planeWr cell d) := by
  simp [decodeTxn, planeWriteTxn, checkAccess_planeAddr h, planeField_planeAddr]

/-- The instruction read at a register offset (R87). -/
theorem decodeRegRead_ok {a : Word} {i : Instr} (h : decodeRegRead a = .ok i) :
    (a = 0x000 ∧ i = .rdId) ∨ (a = 0x004 ∧ i = .rdInfo) ∨ (a = 0x008 ∧ i = .rdCmd) ∨ (a = 0x00C ∧ i = .rdStatus) ∨
    (a = 0x010 ∧ i = .rdIrqEn) := by
  unfold decodeRegRead at h
  split at h
  · simp_all
  · split at h
    · simp_all
    · split at h
      · simp_all
      · split at h
        · simp_all
        · split at h <;> simp_all

/-- The instruction written at a register offset (R87). -/
theorem decodeRegWrite_ok {a d : Word} {i : Instr} (h : decodeRegWrite a d = .ok i) :
    (a = 0x000 ∧ i = .wrId d) ∨ (a = 0x004 ∧ i = .wrInfo d) ∨ (a = 0x008 ∧ i = .wrCmd d) ∨
    (a = 0x00C ∧ i = .wrStatus d) ∨ (a = 0x010 ∧ i = .wrIrqEn d) := by
  unfold decodeRegWrite at h
  split at h
  · simp_all
  · split at h
    · simp_all
    · split at h
      · simp_all
      · split at h
        · simp_all
        · split at h <;> simp_all

/-- A transaction never decodes to a command word, and a plane access it decodes to is in the window. -/
theorem decodeTxn_ok {t : Txn} {i : Instr} (h : decodeTxn t = .ok i) :
    i = .rdId ∨ i = .rdInfo ∨ i = .rdCmd ∨ i = .rdStatus ∨ i = .rdIrqEn ∨
    (∃ d, i = .wrId d) ∨ (∃ d, i = .wrInfo d) ∨ (∃ w, i = .wrCmd w) ∨ (∃ d, i = .wrStatus d) ∨
    (∃ d, i = .wrIrqEn d) ∨
    (∃ cell, i = .planeRd cell ∧ planeFieldOk cell = true) ∨
    (∃ cell d, i = .planeWr cell d ∧ planeFieldOk cell = true) := by
  cases t with
  | read a n =>
    simp only [decodeTxn] at h
    split at h
    · cases h
    · rcases decodeRegRead_ok h with ⟨-, rfl⟩ | ⟨-, rfl⟩ | ⟨-, rfl⟩ | ⟨-, rfl⟩ | ⟨-, rfl⟩ <;> simp
    · rename_i hc
      obtain ⟨hb, -⟩ | ⟨-, -, h1, h2, h8⟩ := checkAccess_ok hc
      · cases hb
      · injection h with h
        subst h
        simp [planeFieldOk_planeField h1 h2]
  | write a data =>
    simp only [decodeTxn] at h
    split at h
    · cases h
    · rcases decodeRegWrite_ok h with ⟨-, rfl⟩ | ⟨-, rfl⟩ | ⟨-, rfl⟩ | ⟨-, rfl⟩ | ⟨-, rfl⟩ <;> simp
    · rename_i hc
      obtain ⟨hb, -⟩ | ⟨-, -, h1, h2, h8⟩ := checkAccess_ok hc
      · cases hb
      · injection h with h
        subst h
        simp [planeFieldOk_planeField h1 h2]

end Sys2Proof.Machine
end

