-- ==== Sys2Proof/Laws/PerInstr.lean ====
section
/-! SUPPORT. A statement made per instruction: the encoding of each instruction carries the fixed bits of its row of
spec/opcode_table.json. -/

namespace Sys2Proof.Laws.TableRow

open Sys2Proof Sys2Proof.Machine

/-- The mask of an instruction's row: the bits the table fixes. -/
def mask : Instr → Word
  | .nop _ | .decompose _ | .reconstruct _ => 0xFFFFFF0F
  | .planeRd _ | .planeWr _ _ => 0xFFC00007
  | .rdId | .wrId _ | .rdInfo | .wrInfo _ | .rdCmd | .wrCmd _ | .rdStatus | .wrStatus _ | .rdIrqEn | .wrIrqEn _ =>
    0xFFFFFFFF

/-- The value of the fixed bits of an instruction's row. -/
def fixed : Instr → Word
  | .nop _ => 0x00000000
  | .decompose _ => 0x00000001
  | .reconstruct _ => 0x00000002
  | .rdId | .wrId _ => 0x00000000
  | .rdInfo | .wrInfo _ => 0x00000004
  | .rdCmd | .wrCmd _ => 0x00000008
  | .rdStatus | .wrStatus _ => 0x0000000C
  | .rdIrqEn | .wrIrqEn _ => 0x00000010
  | .planeRd _ | .planeWr _ _ => 0x00000000

/-- The number the table numbers: the command word, or the offset. -/
def number : Encoded → Word
  | .cmd32 w => w
  | .bus (.read a _) => a
  | .bus (.write a _) => a

/-- The encoding of `i` has the fixed bits of its row. -/
def Statement (i : Instr) : Prop := number (encode i) &&& mask i = fixed i

theorem cmdWord_and_mask (op : BitVec 2) (l : BitVec 4) : cmdWord op l &&& 0xFFFFFF0F = op.setWidth 32 := by
  revert op l
  decide

theorem planeAddr_and_mask (cell : BitVec 19) : planeAddr cell &&& 0xFFC00007 = 0 := by
  ext j hj
  simp only [planeAddr, BitVec.getElem_and, BitVec.getElem_append]
  have hj' : j < 32 := hj
  interval_cases j <;> simp

theorem nop (l : BitVec 4) : Statement (.nop l) := cmdWord_and_mask 0 l
theorem decompose (l : BitVec 4) : Statement (.decompose l) := cmdWord_and_mask 1 l
theorem reconstruct (l : BitVec 4) : Statement (.reconstruct l) := cmdWord_and_mask 2 l
theorem rdId : Statement .rdId := by simp [Statement, number, encode, mask, fixed]
theorem wrId (d : Word) : Statement (.wrId d) := by simp [Statement, number, encode, mask, fixed]
theorem rdInfo : Statement .rdInfo := by simp [Statement, number, encode, mask, fixed]
theorem wrInfo (d : Word) : Statement (.wrInfo d) := by simp [Statement, number, encode, mask, fixed]
theorem rdCmd : Statement .rdCmd := by simp [Statement, number, encode, mask, fixed]
theorem wrCmd (w : Word) : Statement (.wrCmd w) := by simp [Statement, number, encode, mask, fixed]
theorem rdStatus : Statement .rdStatus := by simp [Statement, number, encode, mask, fixed]
theorem wrStatus (d : Word) : Statement (.wrStatus d) := by simp [Statement, number, encode, mask, fixed]
theorem rdIrqEn : Statement .rdIrqEn := by simp [Statement, number, encode, mask, fixed]
theorem wrIrqEn (d : Word) : Statement (.wrIrqEn d) := by simp [Statement, number, encode, mask, fixed]
theorem planeRd (cell : BitVec 19) : Statement (.planeRd cell) := planeAddr_and_mask cell
theorem planeWr (cell : BitVec 19) (d : Val) : Statement (.planeWr cell d) := planeAddr_and_mask cell

end Sys2Proof.Laws.TableRow
end

