-- ==== Sys2Proof/Laws/Transform.lean ====
section
/-! SUPPORT. What a gather, a scatter, one lifted line and a list of lifted lines do: which cells they read, what they
leave in each cell, when they have a result, and that they keep the canonical form. -/

namespace Sys2Proof.Machine

@[simp] theorem applyLifter_length (f : Lifter) (v : List Val) : (applyLifter f v).length = v.length := by
  simp [applyLifter]

/-- The lifter at the length of the sequence: what `Lift(dir, n, v)` is for a sequence of `n` values (R100). -/
theorem applyLifter_eq (f : Lifter) {n : Nat} (v : Vector Val n) : applyLifter f v.toList = (f n v).toList := by
  obtain ⟨a, rfl⟩ := v
  simp [applyLifter]

/-! ### Gather -/

/-- The values of a line, unwritten cells as 0: what `gather` gives where it gives anything. -/
def lineVals (m : Memory) (line : List Nat) : List Val := line.map fun e => (m.read e).getD 0

@[simp] theorem lineVals_length (m : Memory) (line : List Nat) : (lineVals m line).length = line.length := by
  simp [lineVals]

theorem lineVals_congr {m m' : Memory} {line : List Nat} (h : ∀ e ∈ line, m'.read e = m.read e) :
    lineVals m' line = lineVals m line :=
  List.map_congr_left fun e he => by rw [h e he]

theorem gather_cons (m : Memory) (e : Nat) (line : List Nat) :
    gather m (e :: line) = (m.read e).bind fun v => (gather m line).map (v :: ·) := by
  simp only [gather, List.mapM_cons]
  cases m.read e with
  | none => rfl
  | some v => cases List.mapM m.read line <;> rfl

theorem gather_of_written {m : Memory} {line : List Nat} (h : ∀ e ∈ line, (m.read e).isSome = true) :
    gather m line = some (lineVals m line) := by
  induction line with
  | nil => rfl
  | cons e line ih =>
    obtain ⟨v, hv⟩ := Option.isSome_iff_exists.mp (h e List.mem_cons_self)
    rw [gather_cons, ih fun e he => h e (List.mem_cons_of_mem _ he), hv]
    simp [lineVals, hv]

theorem gather_eq_some {m : Memory} {line : List Nat} {v : List Val} (h : gather m line = some v) :
    (∀ e ∈ line, (m.read e).isSome = true) ∧ v = lineVals m line := by
  have hw : ∀ e ∈ line, (m.read e).isSome = true := by
    induction line generalizing v with
    | nil => simp
    | cons e line ih =>
      rw [gather_cons] at h
      obtain ⟨u, hu, h⟩ := Option.bind_eq_some_iff.mp h
      obtain ⟨x, hx, -⟩ := Option.map_eq_some_iff.mp h
      intro e' he'
      rcases List.mem_cons.mp he' with rfl | he'
      · simp [hu]
      · exact ih hx e' he'
  exact ⟨hw, Option.some_injective _ (h.symm.trans (gather_of_written hw))⟩

theorem gather_eq_none_iff {m : Memory} {line : List Nat} : gather m line = none ↔ ∃ e ∈ line, m.read e = none := by
  constructor
  · intro h
    by_contra hc
    push Not at hc
    rw [gather_of_written fun e he => Option.isSome_iff_ne_none.mpr (hc e he)] at h
    cases h
  · rintro ⟨e, he, hn⟩
    cases h : gather m line with
    | none => rfl
    | some v =>
      have := (gather_eq_some h).1 e he
      simp [hn] at this

/-! ### Scatter -/

theorem scatter_cons (m : Memory) (e : Nat) (line : List Nat) (v : Val) (vs : List Val) :
    scatter m (e :: line) (v :: vs) = scatter (m.write e v) line vs := rfl

@[simp] theorem scatter_nil (m : Memory) (vs : List Val) : scatter m [] vs = m := rfl

@[simp] theorem scatter_nil_right (m : Memory) (line : List Nat) : scatter m line [] = m := by simp [scatter]

/-- A scatter leaves every cell outside the line as it was. -/
theorem scatter_read_of_not_mem {m : Memory} {line : List Nat} {vs : List Val} {e : Nat} (h : e ∉ line) :
    (scatter m line vs).read e = m.read e := by
  induction line generalizing m vs with
  | nil => rfl
  | cons e' line ih =>
    cases vs with
    | nil => simp
    | cons v vs =>
      rw [scatter_cons, ih fun h' => h (List.mem_cons_of_mem _ h'),
        Memory.read_write_other _ _ fun h' => h (List.mem_cons.mpr (.inl h'))]

/-- A scatter puts element `i` into cell `i` of the line. -/
theorem scatter_read_getElem {m : Memory} {line : List Nat} {vs : List Val} (hn : line.Nodup)
    (hl : vs.length = line.length) (i : Nat) (hi : i < line.length) :
    (scatter m line vs).read ((line)[i]) = some (vs[i]'(hl ▸ hi)) := by
  induction line generalizing m vs i with
  | nil => simp at hi
  | cons e line ih =>
    cases vs with
    | nil => simp at hl
    | cons v vs =>
      obtain ⟨he, hn⟩ := List.nodup_cons.mp hn
      rw [scatter_cons]
      cases i with
      | zero =>
        simp only [List.getElem_cons_zero]
        rw [scatter_read_of_not_mem he, Memory.read_write_same]
      | succ i => exact ih hn (by simpa using hl) i (by simpa using hi)

theorem scatter_isSome {m : Memory} {line : List Nat} {vs : List Val} (h : ∀ e ∈ line, (m.read e).isSome = true)
    (e : Nat) : ((scatter m line vs).read e).isSome = (m.read e).isSome := by
  induction line generalizing m vs with
  | nil => rfl
  | cons e' line ih =>
    cases vs with
    | nil => simp
    | cons v vs =>
      have hw : ∀ x, ((m.write e' v).read x).isSome = (m.read x).isSome := by
        intro x
        rw [Memory.read_write]
        split
        · subst_vars
          simp [h _ List.mem_cons_self]
        · rfl
      rw [scatter_cons, ih fun x hx => (hw x).trans (h x (List.mem_cons_of_mem _ hx)), hw]

/-- A scatter keeps the canonical form. -/
theorem scatter_wfIn {n : Nat} {m : Memory} {line : List Nat} {vs : List Val} (hm : m.wfIn n = true)
    (h : ∀ e ∈ line, e < n) : (scatter m line vs).wfIn n = true := by
  induction line generalizing m vs with
  | nil => exact hm
  | cons e line ih =>
    cases vs with
    | nil => simpa using hm
    | cons v vs =>
      rw [scatter_cons]
      exact ih (Memory.wfIn_write v hm (h e List.mem_cons_self)) fun x hx => h x (List.mem_cons_of_mem _ hx)

/-! ### One line -/

/-- A line has a result exactly when its cells are written, and then it is this one. -/
theorem liftLine_eq_some {f : Lifter} {w w' : Work} {line : List Nat} :
    liftLine f w line = some w' ↔
      (∀ e ∈ line, (w.1.read e).isSome = true) ∧
        w' = (scatter w.1 line (applyLifter f (lineVals w.1 line)), applyLifter f (lineVals w.1 line)) := by
  unfold liftLine
  constructor
  · intro h
    split at h
    · cases h
    · rename_i v hv
      obtain ⟨hw, rfl⟩ := gather_eq_some hv
      exact ⟨hw, (Option.some_injective _ h).symm⟩
  · rintro ⟨hw, rfl⟩
    rw [gather_of_written hw]

theorem liftLine_isSome {f : Lifter} {w w' : Work} {line : List Nat} (h : liftLine f w line = some w') (e : Nat) :
    (w'.1.read e).isSome = (w.1.read e).isSome := by
  obtain ⟨hw, rfl⟩ := liftLine_eq_some.mp h
  exact scatter_isSome hw e

theorem liftLine_wfIn {f : Lifter} {w w' : Work} {line : List Nat} {n : Nat} (h : liftLine f w line = some w')
    (hm : w.1.wfIn n = true) (hl : ∀ e ∈ line, e < n) : w'.1.wfIn n = true := by
  obtain ⟨-, rfl⟩ := liftLine_eq_some.mp h
  exact scatter_wfIn hm hl

theorem liftLine_lb_length {f : Lifter} {w w' : Work} {line : List Nat} (h : liftLine f w line = some w') :
    w'.2.length = line.length := by
  obtain ⟨-, rfl⟩ := liftLine_eq_some.mp h
  simp

/-! ### A list of lines -/

@[simp] theorem liftLines_nil (f : Lifter) (w : Work) : liftLines f [] w = some w := rfl

theorem liftLines_cons (f : Lifter) (line : List Nat) (lines : List (List Nat)) (w : Work) :
    liftLines f (line :: lines) w = (liftLine f w line).bind (liftLines f lines) := rfl

theorem liftLines_append (f : Lifter) (ls ls' : List (List Nat)) (w : Work) :
    liftLines f (ls ++ ls') w = (liftLines f ls w).bind (liftLines f ls') := by
  simp [liftLines, List.foldlM_append]
  rfl

/-- Lifting lines keeps each cell written or unwritten. -/
theorem liftLines_isSome {f : Lifter} {lines : List (List Nat)} {w w' : Work} (h : liftLines f lines w = some w')
    (e : Nat) : (w'.1.read e).isSome = (w.1.read e).isSome := by
  induction lines generalizing w with
  | nil => cases h; rfl
  | cons line lines ih =>
    obtain ⟨x, hx, h⟩ := Option.bind_eq_some_iff.mp (liftLines_cons .. ▸ h)
    rw [ih h, liftLine_isSome hx]

/-- Lifting lines keeps the canonical form. -/
theorem liftLines_wfIn {f : Lifter} {lines : List (List Nat)} {w w' : Work} {n : Nat}
    (h : liftLines f lines w = some w') (hm : w.1.wfIn n = true) (hl : ∀ line ∈ lines, ∀ e ∈ line, e < n) :
    w'.1.wfIn n = true := by
  induction lines generalizing w with
  | nil => cases h; exact hm
  | cons line lines ih =>
    obtain ⟨x, hx, h⟩ := Option.bind_eq_some_iff.mp (liftLines_cons .. ▸ h)
    exact ih h (liftLine_wfIn hx hm (hl line List.mem_cons_self)) fun l h' => hl l (List.mem_cons_of_mem _ h')

/-- Lifting lines leaves the line buffer with a line's values, or as it was. -/
theorem liftLines_lb_length {f : Lifter} {lines : List (List Nat)} {w w' : Work} {n : Nat}
    (h : liftLines f lines w = some w') (hw : w.2.length ≤ n) (hl : ∀ line ∈ lines, line.length ≤ n) :
    w'.2.length ≤ n := by
  induction lines generalizing w with
  | nil => cases h; exact hw
  | cons line lines ih =>
    obtain ⟨x, hx, h⟩ := Option.bind_eq_some_iff.mp (liftLines_cons .. ▸ h)
    exact ih h ((liftLine_lb_length hx).trans_le (hl line List.mem_cons_self)) fun l h' =>
      hl l (List.mem_cons_of_mem _ h')

/-- Lifting lines leaves every cell of no line as it was. -/
theorem liftLines_read_of_not_mem {f : Lifter} {lines : List (List Nat)} {w w' : Work}
    (h : liftLines f lines w = some w') {e : Nat} (he : ∀ line ∈ lines, e ∉ line) : w'.1.read e = w.1.read e := by
  induction lines generalizing w with
  | nil => cases h; rfl
  | cons line lines ih =>
    obtain ⟨x, hx, h⟩ := Option.bind_eq_some_iff.mp (liftLines_cons .. ▸ h)
    rw [ih h fun l h' => he l (List.mem_cons_of_mem _ h')]
    obtain ⟨-, rfl⟩ := liftLine_eq_some.mp hx
    exact scatter_read_of_not_mem (he line List.mem_cons_self)

/-- Lifting lines has a result when every cell of every line is written. -/
theorem liftLines_of_written {f : Lifter} {lines : List (List Nat)} {w : Work}
    (h : ∀ line ∈ lines, ∀ e ∈ line, (w.1.read e).isSome = true) : ∃ w', liftLines f lines w = some w' := by
  induction lines generalizing w with
  | nil => exact ⟨w, rfl⟩
  | cons line lines ih =>
    have hx := (liftLine_eq_some (f := f)).mpr ⟨h line List.mem_cons_self, rfl⟩
    rw [liftLines_cons, hx]
    exact ih fun l h' e he => (liftLine_isSome hx e).trans (h l (List.mem_cons_of_mem _ h') e he)

/-- A result means every cell of every line was written. -/
theorem liftLines_written {f : Lifter} {lines : List (List Nat)} {w w' : Work} (h : liftLines f lines w = some w') :
    ∀ line ∈ lines, ∀ e ∈ line, (w.1.read e).isSome = true := by
  induction lines generalizing w with
  | nil => simp
  | cons line lines ih =>
    obtain ⟨x, hx, h⟩ := Option.bind_eq_some_iff.mp (liftLines_cons .. ▸ h)
    intro l hl e he
    rcases List.mem_cons.mp hl with rfl | hl
    · exact (liftLine_eq_some.mp hx).1 e he
    · exact (liftLine_isSome hx e).symm.trans (ih h l hl e he)

/-- Lines that share no cell: each line's cells end as the lifter's result on what the line held at the start. -/
theorem liftLines_read_getElem {f : Lifter} {lines : List (List Nat)} {w w' : Work}
    (h : liftLines f lines w = some w') (hn : ∀ line ∈ lines, line.Nodup) (hd : lines.Pairwise List.Disjoint)
    {line : List Nat} (hl : line ∈ lines) (i : Nat) (hi : i < line.length) :
    w'.1.read ((line)[i]) = some ((applyLifter f (lineVals w.1 line))[i]'(by simpa using hi)) := by
  induction lines generalizing w with
  | nil => simp at hl
  | cons l lines ih =>
    obtain ⟨x, hx, hr⟩ := Option.bind_eq_some_iff.mp (liftLines_cons .. ▸ h)
    obtain ⟨hdl, hds⟩ := List.pairwise_cons.mp hd
    rcases List.mem_cons.mp hl with rfl | hl
    · rw [liftLines_read_of_not_mem hr fun l' hl' he => hdl l' hl' (List.getElem_mem hi) he]
      obtain ⟨-, rfl⟩ := liftLine_eq_some.mp hx
      exact scatter_read_getElem (hn _ List.mem_cons_self) (by simp) i hi
    · have hv : lineVals x.1 line = lineVals w.1 line := by
        refine lineVals_congr fun e he => ?_
        obtain ⟨-, rfl⟩ := liftLine_eq_some.mp hx
        exact scatter_read_of_not_mem fun he' => hdl line hl he' he
      have := ih hr (fun l' hl' => hn l' (List.mem_cons_of_mem _ hl')) hds hl
      simpa [hv] using this

/-- The line buffer never reaches the plane: two works with the same plane lift to the same plane. -/
theorem liftLines_fst_congr (f : Lifter) (lines : List (List Nat)) (m : Memory) (lb lb' : List Val) :
    (liftLines f lines (m, lb)).map Prod.fst = (liftLines f lines (m, lb')).map Prod.fst := by
  cases lines with
  | nil => rfl
  | cons line lines => rfl

/-! ### The lines of a pass -/

theorem index_lt {g : Geom} {r c : Nat} (hr : r < g.h) (hc : c < g.w) : index g r c < g.w * g.h := by
  unfold index
  calc r * g.w + c < r * g.w + g.w := by omega
    _ = (r + 1) * g.w := by ring
    _ ≤ g.h * g.w := Nat.mul_le_mul_right _ hr
    _ = g.w * g.h := Nat.mul_comm ..

theorem index_inj {g : Geom} {r c r' c' : Nat} (hc : c < g.w) (hc' : c' < g.w) (h : index g r c = index g r' c') :
    r = r' ∧ c = c' := by
  unfold index at h
  have h1 := congrArg (· / g.w) h
  have h2 := congrArg (· % g.w) h
  have hw : 0 < g.w := by omega
  simp only [Nat.mul_comm _ g.w, Nat.mul_add_div hw, Nat.mul_add_mod, Nat.div_eq_of_lt hc, Nat.div_eq_of_lt hc',
    Nat.mod_eq_of_lt hc, Nat.mod_eq_of_lt hc'] at h1 h2
  exact ⟨by omega, h2⟩

theorem activeW_le (g : Geom) (k : Nat) : activeW g k ≤ g.w := Nat.shiftRight_le ..

theorem activeH_le (g : Geom) (k : Nat) : activeH g k ≤ g.h := Nat.shiftRight_le ..

@[simp] theorem rowLine_length (g : Geom) (k r : Nat) : (rowLine g k r).length = activeW g k := by simp [rowLine]

@[simp] theorem colLine_length (g : Geom) (k c : Nat) : (colLine g k c).length = activeH g k := by simp [colLine]

theorem mem_rowLine {g : Geom} {k r e : Nat} : e ∈ rowLine g k r ↔ ∃ c, c < activeW g k ∧ e = index g r c := by
  simp [rowLine, eq_comm]

theorem mem_colLine {g : Geom} {k c e : Nat} : e ∈ colLine g k c ↔ ∃ r, r < activeH g k ∧ e = index g r c := by
  simp [colLine, eq_comm]

theorem mem_rowLines {g : Geom} {k : Nat} {line : List Nat} :
    line ∈ rowLines g k ↔ ∃ r, r < activeH g k ∧ line = rowLine g k r := by simp [rowLines, eq_comm]

theorem mem_colLines {g : Geom} {k : Nat} {line : List Nat} :
    line ∈ colLines g k ↔ ∃ c, c < activeW g k ∧ line = colLine g k c := by simp [colLines, eq_comm]

theorem rowLine_nodup (g : Geom) (k r : Nat) : (rowLine g k r).Nodup :=
  List.nodup_range.map fun a b h => by simpa [index] using h

theorem colLine_nodup {g : Geom} {k c : Nat} (hc : c < activeW g k) : (colLine g k c).Nodup :=
  have hw := hc.trans_le (activeW_le g k)
  List.nodup_range.map fun _ _ h => (index_inj hw hw h).1

theorem rowLines_disjoint (g : Geom) (k : Nat) : (rowLines g k).Pairwise List.Disjoint := by
  refine List.pairwise_map.mpr ((List.pairwise_lt_range).imp fun {r r'} h e he he' => ?_)
  obtain ⟨c, hc, rfl⟩ := mem_rowLine.mp he
  obtain ⟨c', hc', h'⟩ := mem_rowLine.mp he'
  have := (index_inj (hc.trans_le (activeW_le g k)) (hc'.trans_le (activeW_le g k)) h').1
  omega

theorem colLines_disjoint (g : Geom) (k : Nat) : (colLines g k).Pairwise List.Disjoint := by
  refine List.pairwise_map.mpr (List.Pairwise.imp_of_mem ?_ List.pairwise_lt_range)
  intro c c' hc hc' h e he he'
  rw [List.mem_range] at hc hc'
  obtain ⟨r, -, rfl⟩ := mem_colLine.mp he
  obtain ⟨r', -, h'⟩ := mem_colLine.mp he'
  have := (index_inj (hc.trans_le (activeW_le g k)) (hc'.trans_le (activeW_le g k)) h').2
  omega

theorem rowLines_nodup {g : Geom} {k : Nat} : ∀ line ∈ rowLines g k, line.Nodup := by
  intro line h
  obtain ⟨r, -, rfl⟩ := mem_rowLines.mp h
  exact rowLine_nodup g k r

theorem colLines_nodup {g : Geom} {k : Nat} : ∀ line ∈ colLines g k, line.Nodup := by
  intro line h
  obtain ⟨c, hc, rfl⟩ := mem_colLines.mp h
  exact colLine_nodup hc

/-- The cells of a row pass, and of a column pass: the active extent. -/
theorem mem_rowLines_cells {g : Geom} {k e : Nat} :
    (∃ line ∈ rowLines g k, e ∈ line) ↔ ∃ r c, r < activeH g k ∧ c < activeW g k ∧ e = index g r c := by
  constructor
  · rintro ⟨line, hl, he⟩
    obtain ⟨r, hr, rfl⟩ := mem_rowLines.mp hl
    obtain ⟨c, hc, rfl⟩ := mem_rowLine.mp he
    exact ⟨r, c, hr, hc, rfl⟩
  · rintro ⟨r, c, hr, hc, rfl⟩
    exact ⟨_, mem_rowLines.mpr ⟨r, hr, rfl⟩, mem_rowLine.mpr ⟨c, hc, rfl⟩⟩

theorem mem_colLines_cells {g : Geom} {k e : Nat} :
    (∃ line ∈ colLines g k, e ∈ line) ↔ ∃ r c, r < activeH g k ∧ c < activeW g k ∧ e = index g r c := by
  constructor
  · rintro ⟨line, hl, he⟩
    obtain ⟨c, hc, rfl⟩ := mem_colLines.mp hl
    obtain ⟨r, hr, rfl⟩ := mem_colLine.mp he
    exact ⟨r, c, hr, hc, rfl⟩
  · rintro ⟨r, c, hr, hc, rfl⟩
    exact ⟨_, mem_colLines.mpr ⟨c, hc, rfl⟩, mem_colLine.mpr ⟨r, hr, rfl⟩⟩

end Sys2Proof.Machine
end

