-- ==== Sys2Proof/Laws/Step.lean ====
section
/-! SUPPORT. What one step can do: which agent may move, and one case for each agent that did. -/

namespace Sys2Proof.Machine

/-- The agent that moves is enabled (R174). -/
theorem nextAgent_enabled {s : State} {a : Agent} (h : nextAgent s = some a) : enabled s a = true := by
  have hd : defaultAgent s = some a → enabled s a = true := by
    intro h
    unfold defaultAgent at h
    split at h
    · injection h with h
      subst h
      assumption
    · split at h
      · injection h with h
        subst h
        assumption
      · cases h
  unfold nextAgent at h
  split at h
  · split at h
    · injection h with h
      subst h
      assumption
    · exact hd h
  · exact hd h

theorem enabled_sequencer {s : State} : enabled s .sequencer = true ↔ ∃ op l, s.seq = .run op l := by
  unfold enabled
  cases h : s.seq <;> simp

theorem enabled_host {s : State} : enabled s .host = true ↔
    (∃ t, s.held = some t ∧ s.status.busy = false) ∨ (s.held = none ∧ ∃ t rest, s.queue = t :: rest) := by
  unfold enabled
  cases hh : s.held with
  | some t => simp
  | none =>
    cases hq : s.queue with
    | nil => simp
    | cons x rest => simp

/-- What the port works on: the held transaction, or the head of the queue while nothing is held (R60, R146). -/
theorem takeTxn_cases {s s' : State} {t : Txn} (h : takeTxn s = some (t, s')) :
    (s.held = some t ∧ s' = { s with held := none }) ∨
    (s.held = none ∧ ∃ rest, s.queue = t :: rest ∧ s' = { s with queue := rest }) := by
  unfold takeTxn at h
  split at h
  · injection h with h
    injection h with h1 h2
    subst h1
    exact .inl ⟨‹_›, h2.symm⟩
  · split at h
    · injection h with h
      injection h with h1 h2
      subst h1
      exact .inr ⟨‹_›, _, ‹_›, h2.symm⟩
    · cases h

/-- The port answers a transaction by its instruction, or with a bus error (R140, R172). -/
theorem serve_cases {tx : Txn} {s t : State} (h : serve tx s = .next t) :
    (∃ e, decodeTxn tx = .error e ∧ t = s.respond .err) ∨ (∃ i, decodeTxn tx = .ok i ∧ exec i s = .next t) := by
  unfold serve at h
  split at h
  · exact .inr ⟨_, ‹_›, h⟩
  · exact .inl ⟨_, ‹_›, by simpa using h.symm⟩

/-- What the completion step can answer (R113). -/
theorem completionStep_cases {s t : State} (h : completionStep s = .next t) :
    (s.seq = .idle ∧ t = s) ∨
    (∃ op l w, s.seq = .run op l ∧ transform op l (s.plane, s.lb) = some w ∧ t = s.finish w) := by
  unfold completionStep at h
  split at h
  · injection h with h
    exact .inl ⟨‹_›, h.symm⟩
  · split at h
    · cases h
    · injection h with h
      exact .inr ⟨_, _, _, ‹_›, ‹_›, h.symm⟩

/-- What one step can do. -/
theorem step_cases {s t : State} (h : step s = .next t) :
    s.mark = none ∧
    ((nextAgent s = some .reset ∧ t = s.tick.resetEvent) ∨
     (nextAgent s = some .sequencer ∧ ∃ op l w, s.seq = .run op l ∧ transform op l (s.plane, s.lb) = some w ∧
        t = s.tick.finish w) ∨
     (nextAgent s = some .host ∧ ∃ tx s', takeTxn s.tick = some (tx, s') ∧ serve tx s' = .next t) ∨
     (nextAgent s = none ∧ t = s.tick)) := by
  unfold step blockStep at h
  split at h
  · cases h
  · refine ⟨‹_›, ?_⟩
    unfold moveStep at h
    split at h
    · rename_i a ha
      cases a with
      | reset =>
        injection h with h
        exact .inl ⟨ha, h.symm⟩
      | sequencer =>
        obtain ⟨op, l, hseq⟩ := enabled_sequencer.mp (nextAgent_enabled ha)
        rcases completionStep_cases h with ⟨hi, -⟩ | ⟨op', l', w, h1, h2, rfl⟩
        · rw [State.tick_seq, hseq] at hi
          cases hi
        · exact .inr (.inl ⟨ha, op', l', w, h1, h2, rfl⟩)
      | host =>
        refine .inr (.inr (.inl ⟨ha, ?_⟩))
        simp only [agentStep, hostStep] at h
        split at h
        · exact ⟨_, _, ‹_›, h⟩
        · rename_i hn
          rcases enabled_host.mp (nextAgent_enabled ha) with ⟨x, hx, -⟩ | ⟨hx, x, rest, hq⟩
          · simp [takeTxn, hx] at hn
          · simp [takeTxn, hx, hq] at hn
    · injection h with h
      exact .inr (.inr (.inr ⟨‹_›, h.symm⟩))

/-- A step that faults was of an unmarked state or repeats its mark. -/
theorem step_of_mark {s : State} {f : Fault} (h : s.mark = some f) : step s = .fault f := by
  simp [step, blockStep, h]

/-- The step is never refused. -/
theorem step_not_refused (s : State) (r : Refusal) : step s ≠ .refused r := by
  unfold step blockStep
  split
  · simp
  · unfold moveStep
    split
    · rename_i a _
      cases a with
      | reset => simp [agentStep]
      | sequencer =>
        simp only [agentStep, completionStep]
        split
        · simp
        · split <;> simp
      | host =>
        simp only [agentStep, hostStep]
        split
        · unfold serve
          split
          · exact exec_not_refused _ _ _
          · simp
        · simp
    · simp

/-! ### Runs -/

@[simp] theorem run_zero (s : State) : core.run 0 s = .next s := rfl

theorem run_succ_of_next {s t : State} (n : Nat) (h : step s = .next t) : core.run (n + 1) s = core.run n t := by
  have h' : core.step s = .next t := h
  simp only [Host.Core.run, h']

theorem run_succ_of_fault {s : State} {f : Fault} (n : Nat) (h : step s = .fault f) :
    core.run (n + 1) s = .fault f := by
  have h' : core.step s = .fault f := h
  simp only [Host.Core.run, h']

end Sys2Proof.Machine
end

