-- ==== Sys2Proof/Tests/Slice0.lean ====
section
/-! SUPPORT. The model's own tests: ill-formed terms, words written out from the spec's encodings, single steps with the
results of 95_test_vectors.md, the transform vectors on small planes with the spec's stand-in lifters, and a witness for the
hypotheses of each statement that has some. -/

namespace Sys2Proof.Tests

open Sys2Proof Sys2Proof.Machine

/-! ### Well-formedness: each check refuses an ill-formed term -/

/-- Field W below 0x20000 is no cell (opcode_table.json). -/
theorem test_wf_planeRd_low : Instr.wf (.planeRd 0x1FFFF) = false := by decide

/-- Field W above 0x5FFFF is no cell. -/
theorem test_wf_planeRd_high : Instr.wf (.planeRd 0x60000) = false := by decide

theorem test_wf_planeWr_low : Instr.wf (.planeWr 0x1FFFF 0) = false := by decide

theorem test_wf_planeWr_high : Instr.wf (.planeWr 0x60000 0) = false := by decide

theorem test_wf_planeRd_ends : Instr.wf (.planeRd 0x20000) = true ∧ Instr.wf (.planeRd 0x5FFFF) = true := by decide

/-! ### Decoding: words and transactions written out from R81, R83, R87 -/

theorem test_decode_nop : decode (.cmd32 0x000000F0) = .ok (.nop 15) := by decide

/-- R84. -/
theorem test_decode_decompose : decode (.cmd32 0x00000031) = .ok (.decompose 3) := by decide

/-- R84. -/
theorem test_decode_reconstruct : decode (.cmd32 0x00000032) = .ok (.reconstruct 3) := by decide

/-- OP = 3 is reserved, whatever LEVELS (TV-K3, TV-K3g). -/
theorem test_decode_op3 :
    decode (.cmd32 0x00000003) = .error .badOpcode ∧ decode (.cmd32 0x000000F3) = .error .badOpcode := by decide

/-- RSV0 and RSV1 must be 0 (TV-K3b, TV-K3c, TV-K3d). -/
theorem test_decode_reserved_bits :
    decode (.cmd32 0x00000004) = .error .badOpcode ∧ decode (.cmd32 0x00000105) = .error .badOpcode ∧
    decode (.cmd32 0x80000031) = .error .badOpcode := by decide

theorem test_decode_reads :
    decode (.bus (.read 0x000 4)) = .ok .rdId ∧ decode (.bus (.read 0x004 4)) = .ok .rdInfo ∧
    decode (.bus (.read 0x008 4)) = .ok .rdCmd ∧ decode (.bus (.read 0x00C 4)) = .ok .rdStatus ∧
    decode (.bus (.read 0x010 4)) = .ok .rdIrqEn := by decide

/-- Little-endian lanes (R53): the byte at offset 0 is the least significant. -/
theorem test_decode_writes :
    decode (.bus (.write 0x000 [0x44, 0x33, 0x22, 0x11])) = .ok (.wrId 0x11223344) ∧
    decode (.bus (.write 0x004 [0x0F, 0, 0, 0])) = .ok (.wrInfo 0xF) ∧
    decode (.bus (.write 0x008 [0x31, 0, 0, 0x80])) = .ok (.wrCmd 0x80000031) ∧
    decode (.bus (.write 0x00C [6, 0, 0, 0])) = .ok (.wrStatus 6) ∧
    decode (.bus (.write 0x010 [0xFF, 0xFF, 0xFF, 0xFF])) = .ok (.wrIrqEn 0xFFFFFFFF) := by decide

/-- TV-B5: cell (511, 511) is at 0x002F_FFF8; 8.0 is 0x4020_0000_0000_0000. -/
theorem test_decode_planeWr :
    decode (.bus (.write 0x002FFFF8 [0, 0, 0, 0, 0, 0, 0x20, 0x40])) =
      .ok (.planeWr 0x5FFFF 0x4020000000000000) := by decide

/-- TV-B8: offset 0x001A_BCD8 is cell (171, 411), so W = 0x20000 + 171 * 512 + 411. -/
theorem test_decode_planeRd : decode (.bus (.read 0x001ABCD8 8)) = .ok (.planeRd 0x3579B) := by decide

/-- TV-B8: the row and the column of that cell. -/
theorem test_cell_of_offset :
    cellIndex 0x3579B = 171 * 512 + 411 ∧ rowOf (cellIndex 0x3579B) = 171 ∧ colOf (cellIndex 0x3579B) = 411 := by decide

/-- TV-B7: wrong sizes, misalignment, unmapped offsets. -/
theorem test_decode_bus_errors :
    decode (.bus (.read 0x014 4)) = .error .unmapped ∧ decode (.bus (.read 0x000 8)) = .error .wrongSize ∧
    decode (.bus (.write 0x008 [0x31, 0])) = .error .wrongSize ∧ decode (.bus (.read 0x002 4)) = .error .misaligned ∧
    decode (.bus (.read 0x00100000 4)) = .error .wrongSize ∧
    decode (.bus (.write 0x00100004 [0, 0, 0, 0, 0, 0, 0, 0])) = .error .misaligned ∧
    decode (.bus (.read 0x00300000 8)) = .error .unmapped ∧ decode (.bus (.read 0x000FFFF8 8)) = .error .unmapped ∧
    decode (.bus (.write 0x00C [6])) = .error .wrongSize := by decide

/-- R89: the assembler refuses `#16`. -/
theorem test_asm : asmDecompose 3 = some 0x31 ∧ asmReconstruct 15 = some 0xF2 ∧ asmDecompose 16 = none := by decide

/-- The table's numbers (log 11): the command rows, and reads where no command row has the number. -/
theorem test_table_words :
    decodeTableWord 32 0x00000001 = some (.decompose 0) ∧ decodeTableWord 32 0x0000000C = some .rdStatus ∧
    decodeTableWord 32 0x00100008 = some (.planeRd 0x20001) ∧ decodeTableWord 32 0x00000003 = none := by decide

/-! ### Single steps -/

/-- The reset state with some STATUS. -/
def withStatus (busy done err : Bool) (code : BitVec 4) : State :=
  { State.reset with status := ⟨busy, done, err, code⟩, seq := if busy then .run .decompose 3 else .idle }

/-- What a test reads off a next state: a function of it, or nothing after a fault. -/
def after {α : Type} (f : State → α) : Out → Option α
  | .next s => some (f s)
  | .fault _ => none
  | .refused _ => none

/-- The value STATUS would read after an instruction. -/
def statusAfter (i : Instr) (s : State) : Option Word := after (·.status.word) (exec i s)

/-- TV-B1. -/
theorem test_rdId : after (·.responses) (exec .rdId .reset) = some [.okay [0x44, 0x32, 0x44, 0x57]] := by decide

/-- TV-B2. -/
theorem test_rdInfo : after (·.responses) (exec .rdInfo .reset) = some [.okay [0x99, 0x03, 0, 0]] := by decide

/-- TV-B3. -/
theorem test_rdCmd : after (·.responses) (exec .rdCmd .reset) = some [.okay [0, 0, 0, 0]] := by decide

/-- R144's example: ERRCODE 2, ERR, DONE read 0x26. -/
theorem test_rdStatus :
    after (·.responses) (exec .rdStatus (withStatus false true true 2)) = some [.okay [0x26, 0, 0, 0]] := by decide

/-- TV-B4. -/
theorem test_rdIrqEn :
    after (·.responses) (exec .rdIrqEn { State.reset with irqEn := ⟨true, true⟩ }) = some [.okay [3, 0, 0, 0]] := by decide

/-- TV-B4: reserved bits are ignored. -/
theorem test_wrIrqEn : after (·.irqEn.word) (exec (.wrIrqEn 0xFFFFFFFF) .reset) = some 3 := by decide

/-- TV-I1: enabling DONE_IE while DONE = 1 raises irq at once. -/
theorem test_wrIrqEn_irq : after State.irq (exec (.wrIrqEn 1) (withStatus false true false 0)) = some true := by decide

/-- TV-B6. -/
theorem test_wrId : exec (.wrId 0) .reset = .next { State.reset with responses := [.okay []] } := rfl

/-- TV-B6. -/
theorem test_wrInfo : exec (.wrInfo 0xF) .reset = .next { State.reset with responses := [.okay []] } := rfl

/-- TV-K6. -/
theorem test_wrStatus :
    statusAfter (.wrStatus 2) (withStatus false true true 1) = some 0x14 ∧
    statusAfter (.wrStatus 4) (withStatus false false true 1) = some 0x00 ∧
    statusAfter (.wrStatus 6) (withStatus false true true 1) = some 0x00 ∧
    statusAfter (.wrStatus 0) (withStatus false true true 1) = some 0x16 := by decide

/-- TV-K6: BUSY cannot be cleared. -/
theorem test_wrStatus_busy :
    statusAfter (.wrStatus 0xFFFFFFFF) (withStatus true false false 0) = some 0x01 ∧
    statusAfter (.wrStatus 4) (withStatus true false true 3) = some 0x01 := by decide

/-- TV-K4, TV-K4b. -/
theorem test_nop :
    statusAfter (.nop 15) (withStatus false true false 0) = some 0x02 ∧
    statusAfter (.nop 0) (withStatus true false false 0) = some 0x01 := by decide

/-- TV-K2, TV-K3e. -/
theorem test_decompose_bad_levels :
    statusAfter (.decompose 5) (withStatus false true false 0) = some 0x26 ∧
    statusAfter (.decompose 15) (withStatus false false false 0) = some 0x24 := by decide

/-- TV-K1c, TV-K9: DECOMPOSE #0 after reset is accepted, L = 1 faults. -/
theorem test_decompose_reset :
    statusAfter (.decompose 0) .reset = some 0x01 ∧ exec (.decompose 1) .reset = .fault .uninitRead := by
  refine ⟨by decide, rfl⟩

/-- TV-K3f, TV-K5. -/
theorem test_reconstruct_rejected :
    statusAfter (.reconstruct 4) (withStatus false false false 0) = some 0x24 ∧
    statusAfter (.reconstruct 3) (withStatus true false false 0) = some 0x35 := by decide

/-- TV-K1b with L = 0: what is running is RECONSTRUCT. -/
theorem test_reconstruct_accepted : after (·.seq) (exec (.reconstruct 0) .reset) = some (.run .reconstruct 0) := by decide

/-- TV-K3, TV-K3b, TV-K3c, TV-K3d, TV-K3g, TV-K7 while idle. -/
theorem test_wrCmd_idle :
    statusAfter (.wrCmd 0x00000003) .reset = some 0x14 ∧ statusAfter (.wrCmd 0x00000004) .reset = some 0x14 ∧
    statusAfter (.wrCmd 0x00000105) .reset = some 0x14 ∧ statusAfter (.wrCmd 0x80000031) .reset = some 0x14 ∧
    statusAfter (.wrCmd 0x000000F3) .reset = some 0x14 ∧
    statusAfter (.wrCmd 0x00000051) (withStatus false false true 1) = some 0x24 := by decide

/-- TV-K5, TV-K5b, TV-K5c while BUSY. -/
theorem test_wrCmd_busy :
    statusAfter (.wrCmd 0x00000032) (withStatus true false false 0) = some 0x35 ∧
    statusAfter (.wrCmd 0x00000107) (withStatus true false false 0) = some 0x35 ∧
    statusAfter (.wrCmd 0x00000004) (withStatus true false false 0) = some 0x35 := by decide

/-- TV-K9: a written cell reads back, an unwritten one faults. -/
theorem test_planeRd :
    after (·.responses) (exec (.planeRd 0x20000) { State.reset with plane := [(0, 0x3FF0000000000000)] }) =
      some [.okay [0, 0, 0, 0, 0, 0, 0xF0, 0x3F]] ∧
    exec (.planeRd 0x20001) { State.reset with plane := [(0, 0x3FF0000000000000)] } = .fault .uninitRead := by
  refine ⟨by decide, rfl⟩

/-- R146: held while BUSY, with no response. -/
theorem test_planeRd_held :
    after (fun s => (s.held, s.responses)) (exec (.planeRd 0x20000) (withStatus true false false 0)) =
      some (some (.read 0x00100000 8), []) := by decide

/-- TV-B5, and a cell below it: the canonical form is kept. -/
theorem test_planeWr :
    after (·.plane) (exec (.planeWr 0x5FFFF 0x4020000000000000) .reset) = some [(262143, 0x4020000000000000)] ∧
    after (·.plane) (exec (.planeWr 0x20001 7) { State.reset with plane := [(0, 1), (2, 3)] }) =
      some [(0, 1), (1, 7), (2, 3)] := by decide

/-- R146: held while BUSY, with its data. -/
theorem test_planeWr_held :
    after (fun s => (s.held, s.plane)) (exec (.planeWr 0x20000 0x0102) (withStatus true false false 0)) =
      some (some (.write 0x00100000 [2, 1, 0, 0, 0, 0, 0, 0]), []) := by decide

/-- TV-B7: a bus error changes nothing but the response. -/
theorem test_step_bus_error :
    step { State.reset with queue := [.read 0x014 4] } = .next { State.reset with responses := [.err] } := rfl

/-- TV-R1: reset while a read is held: the read completes ERR, the block is idle. -/
theorem test_step_reset :
    step { withStatus true false false 0 with
      irqEn := ⟨true, true⟩, held := some (.read 0x00100000 8), sched := [.reset] } =
      .next { State.reset with responses := [.err] } := rfl

/-- TV-K1c: completion of DECOMPOSE #0 sets DONE and leaves the plane. -/
theorem test_step_completion :
    after (fun s => (s.status.word, s.seq, s.plane))
      (step { withStatus true false false 0 with seq := .run .decompose 0, plane := [(5, 9)] }) =
      some (2, .idle, [(5, 9)]) := by decide

/-- R90: a line of the host notation hands the port its transaction. -/
theorem test_host_line :
    after (·.queue) (.next (hostLine (.wr32 (.off 0x00C) (.imm 6))
      ⟨[], Vector.replicate 8 0, 0, none, .reset⟩).block) = some [.write 0x00C [6, 0, 0, 0]] := by decide

/-! ### Transform vectors, small planes and stand-in lifters (95_test_vectors.md sections 2 and 3) -/

/-- The elements of a sequence at the even positions. -/
def evens : List Val → List Val
  | [] => []
  | [a] => [a]
  | a :: _ :: rest => a :: evens rest

/-- The elements of a sequence at the odd positions. -/
def odds : List Val → List Val
  | [] => []
  | [_] => []
  | _ :: b :: rest => b :: odds rest

/-- A stand-in lifter from a function on lists. -/
def lifterOf (f : List Val → List Val) : Lifter := fun n v => Vector.ofFn fun i : Fin n => (f v.toList).getD i.val 0

/-- PERM, forward: evens, then odds. -/
def perm : Lifter := lifterOf fun v => evens v ++ odds v

/-- NL, forward: PERM, then y[0] ← y[0] + y[1]². -/
def nl : Lifter := lifterOf fun v =>
  match evens v ++ odds v with
  | a :: b :: rest => (a + b * b) :: b :: rest
  | y => y

/-- NL, inverse: y[0] ← y[0] - y[1]², then the two halves interleaved. -/
def nlInv : Lifter := lifterOf fun u =>
  let y := match u with
    | a :: b :: rest => (a - b * b) :: b :: rest
    | y => y
  ((y.take (y.length / 2)).zip (y.drop (y.length / 2))).flatMap fun p => [p.1, p.2]

/-- A plane from its cells, row by row. -/
def planeOf (vs : List Val) : Memory := (List.range vs.length).zip vs

/-- The cells of a transform's result, row by row. -/
def cellsOf (w : Option Work) : Option (List Val) := w.map fun x => x.1.map Prod.snd

/-- TV-T2: PERM, 8 × 8, P[r][c] = 8r + c, DECOMPOSE #2. -/
theorem test_dec_perm_8x8 :
    cellsOf (decPlane perm ⟨8, 8⟩ 2 (planeOf ((List.range 64).map (BitVec.ofNat 64)), [])) = some (
      [0, 4, 2, 6, 1, 3, 5, 7] ++ [32, 36, 34, 38, 17, 19, 21, 23] ++
      [16, 20, 18, 22, 33, 35, 37, 39] ++ [48, 52, 50, 54, 49, 51, 53, 55] ++
      [8, 10, 12, 14, 9, 11, 13, 15] ++ [24, 26, 28, 30, 25, 27, 29, 31] ++
      [40, 42, 44, 46, 41, 43, 45, 47] ++ [56, 58, 60, 62, 57, 59, 61, 63]) := by decide +kernel

/-- TV-O1, the order of passes: NL, 2 × 2, L = 1, both ways. -/
theorem test_order_nl_2x2 :
    cellsOf (decPlane nl ⟨2, 2⟩ 1 (planeOf [1, 2, 3, 4], [])) = some [366, 18, 19, 4] ∧
    cellsOf (recPlane nlInv ⟨2, 2⟩ 1 (planeOf [366, 18, 19, 4], [])) = some [1, 2, 3, 4] := by decide +kernel

/-- TV-O2: NL, 4 × 4, RECONSTRUCT #2 on the DECOMPOSE #2 result. -/
theorem test_rec_nl_4x4 :
    cellsOf (recPlane nlInv ⟨4, 4⟩ 2
      (planeOf ([65336, 202, 82, 124] ++ [208, 10, 9, 11] ++ [40, 6, 5, 7] ++ [208, 14, 13, 15]), [])) =
      some ((List.range 16).map (BitVec.ofNat 64)) := by decide +kernel

/-- TV-N1: NL on a plane 4 wide and 2 high. -/
theorem test_dec_nl_4x2 :
    cellsOf (decPlane nl ⟨4, 2⟩ 1 (planeOf [0, 1, 2, 3, 4, 5, 6, 7], [])) =
      some [1604, 38, 26, 52, 40, 6, 5, 7] := by decide +kernel

/-! ### Witnesses: for each statement with hypotheses, concrete data that meets them together

The name of each says whose they are. A statement of several clauses gets data for each clause, at a boundary. -/

theorem witness_DecodeOfEncode :
    Instr.wf (.planeWr 0x20000 0xFFFFFFFFFFFFFFFF) = true ∧ Instr.wf (.planeRd 0x5FFFF) = true ∧
    Instr.wf (.decompose 15) = true := by decide

theorem witness_EncodeOfDecode :
    decode (.cmd32 0x00000032) = .ok (.reconstruct 3) ∧ decode (.bus (.read 0x002FFFF8 8)) = .ok (.planeRd 0x5FFFF) := by
  decide

/-- The four clauses, with LEVELS at its two ends, OP = 3, and each reserved field set by itself. -/
theorem witness_CommandDecodesByMask :
    ((0x00 : Word) &&& 0xFFFFFF0F = 0 ∧ (0xF0 : Word) &&& 0xFFFFFF0F = 0) ∧
    ((0x01 : Word) &&& 0xFFFFFF0F = 1 ∧ (0xF1 : Word) &&& 0xFFFFFF0F = 1) ∧
    ((0x02 : Word) &&& 0xFFFFFF0F = 2 ∧ (0xF2 : Word) &&& 0xFFFFFF0F = 2) ∧
    ((0x03 : Word) &&& 0xFFFFFF0F ≠ 0 ∧ (0x03 : Word) &&& 0xFFFFFF0F ≠ 1 ∧ (0x03 : Word) &&& 0xFFFFFF0F ≠ 2) ∧
    ((0x04 : Word) &&& 0xFFFFFF0F ≠ 0 ∧ (0x04 : Word) &&& 0xFFFFFF0F ≠ 1 ∧ (0x04 : Word) &&& 0xFFFFFF0F ≠ 2) ∧
    ((0x100 : Word) &&& 0xFFFFFF0F ≠ 0 ∧ (0x100 : Word) &&& 0xFFFFFF0F ≠ 1 ∧ (0x100 : Word) &&& 0xFFFFFF0F ≠ 2) ∧
    ((0x80000000 : Word) &&& 0xFFFFFF0F ≠ 0 ∧ (0x80000000 : Word) &&& 0xFFFFFF0F ≠ 1 ∧ (0x80000000 : Word) &&& 0xFFFFFF0F ≠ 2) := by decide

/-- The two conditions of the last clauses, as Bools: the register rows and the plane rows. -/
def regOffsetOk (a : Word) (n : Nat) : Bool :=
  decide (n = 4 ∧ (a = 0x000 ∨ a = 0x004 ∨ a = 0x008 ∨ a = 0x00C ∨ a = 0x010))

def planeOffsetOk (a : Word) (n : Nat) : Bool :=
  decide (n = 8 ∧ 0x00100000 ≤ a.toNat ∧ a.toNat ≤ 0x002FFFF8 ∧ a.toNat % 8 = 0)

/-- The plane clauses at both ends of the window; the last clause on either side of it, and with a wrong size and a
misaligned offset. -/
theorem witness_BusDecodesByTable :
    planeOffsetOk 0x00100000 8 = true ∧ planeOffsetOk 0x002FFFF8 8 = true ∧
    (regOffsetOk 0x014 4 = false ∧ planeOffsetOk 0x014 4 = false) ∧
    (regOffsetOk 0x000 8 = false ∧ planeOffsetOk 0x000 8 = false) ∧
    (regOffsetOk 0x002 4 = false ∧ planeOffsetOk 0x002 4 = false) ∧
    (regOffsetOk 0x000FFFF8 8 = false ∧ planeOffsetOk 0x000FFFF8 8 = false) ∧
    (regOffsetOk 0x00300000 8 = false ∧ planeOffsetOk 0x00300000 8 = false) ∧
    (regOffsetOk 0x00100004 8 = false ∧ planeOffsetOk 0x00100004 8 = false) ∧
    List.length [(0 : Byte), 0, 0, 0] = 4 ∧ List.length [(0 : Byte), 0, 0, 0, 0, 0, 0, 0] = 8 := by decide

theorem witness_AssemblerWords : (0 ≤ 15 ∧ 15 ≤ 15) ∧ 15 < 16 := by decide

theorem witness_PlaneOffsetNamesCell :
    planeOffsetOk 0x00100000 8 = true ∧ planeOffsetOk 0x002FFFF8 8 = true ∧
    (0x00100000 ≤ (0x002FFFFF : Word).toNat ∧ (0x002FFFFF : Word).toNat < 0x00300000) ∧ 0 < 512 ∧ 511 < 512 := by decide

/-- One word and state for each branch of R110: NOP; busy; reserved bits and OP 3; LEVELS 4; L = 1 on an empty plane; L = 0
on it. -/
theorem witness_CmdWriteFollowsAcceptanceRule :
    (0xF0 : Word) &&& 0xFFFFFF0F = 0 ∧
    ((withStatus true false false 0).status.busy = true ∧ (0x01 : Word) &&& 0xFFFFFF0F ≠ 0) ∧
    ((0x101 : Word) >>> 8 ≠ 0 ∧ ((0x04 : Word) >>> 2) &&& 3 ≠ 0 ∧ (0x03 : Word) &&& 3 = 3) ∧
    ((((0x41 : Word) >>> 4) &&& 15).toNat > 3 ∧ (0x41 : Word) >>> 8 = 0 ∧ ((0x41 : Word) >>> 2) &&& 3 = 0) ∧
    (((0x11 : Word) >>> 4) &&& 15).toNat ≥ 1 ∧ ¬ (((0x01 : Word) >>> 4) &&& 15).toNat ≥ 1 := by decide

theorem witness_CommandRunsAsItsWrite : decode (.cmd32 0x00000041) = .ok (.decompose 4) := by decide

/-- `n` cells from index `a` on, each holding 0. -/
def zeros : Nat → Nat → Memory
  | _, 0 => []
  | a, n + 1 => (a, 0) :: zeros (a + 1) n

theorem zeros_read (a n e : Nat) : (zeros a n).read e = if a ≤ e ∧ e < a + n then some 0 else none := by
  induction n generalizing a with
  | zero => simp [zeros]
  | succ n ih =>
    rw [zeros, Memory.read_cons, ih]
    split_ifs <;> first | rfl | omega

theorem zeros_wfIn (a n m : Nat) (h : a + n ≤ m) : (zeros a n).wfIn m = true := by
  induction n generalizing a with
  | zero => rfl
  | succ n ih =>
    refine (Memory.wfIn_cons ..).mpr ⟨by omega, fun p hp => ?_, ih (a + 1) (by omega)⟩
    have : ∀ b n, ∀ p ∈ zeros b n, b ≤ p.1 := by
      intro b n
      induction n generalizing b with
      | zero => simp [zeros]
      | succ n ih =>
        intro p hp
        rcases List.mem_cons.mp hp with rfl | hp
        · exact Nat.le_refl b
        · exact Nat.le_of_succ_le (ih (b + 1) p hp)
    exact this _ _ p hp

/-- A fully written plane; irreducible, so that no check unrolls it. -/
@[irreducible] def zeroPlane : Memory := zeros 0 262144

theorem zeroPlane_written (e : Nat) (he : e < 262144) : (zeroPlane.read e).isSome = true := by
  rw [zeroPlane, zeros_read, if_pos ⟨Nat.zero_le e, by omega⟩]
  rfl

theorem zeroPlane_wf : zeroPlane.wf = true := by
  rw [zeroPlane, Memory.wf, Config.cells]
  exact zeros_wfIn 0 262144 262144 (by omega)

/-- Both ends of LEVELS: #0 on the empty plane after reset, #3 on a full plane. -/
theorem witness_TransformCommandsAccepted :
    (State.reset.status.busy = false ∧ (0 : BitVec 4).toNat ≤ 3 ∧ ¬ 1 ≤ (0 : BitVec 4).toNat) ∧
    ({ State.reset with plane := zeroPlane }.status.busy = false ∧ (3 : BitVec 4).toNat ≤ 3 ∧
      ∀ e, e < 262144 → ({ State.reset with plane := zeroPlane }.plane.read e).isSome = true) :=
  ⟨by decide, rfl, by decide, zeroPlane_written⟩

theorem witness_TransformCommandsRejected :
    (withStatus true false false 0).status.busy = true ∧ State.reset.status.busy = false ∧ 4 ≤ (4 : BitVec 4).toNat ∧
    4 ≤ (15 : BitVec 4).toNat := by decide

/-- Both sides of the fault: L = 1 on the empty plane; L = 0 on it, and L = 3 on a full one. -/
theorem witness_UninitReadExactlyOnUnwrittenCells :
    (State.reset.status.busy = false ∧ (1 : BitVec 4).toNat ≤ 3 ∧ 1 ≤ (1 : BitVec 4).toNat ∧
      ∃ e, e < 262144 ∧ State.reset.plane.read e = none) ∧
    ¬ 1 ≤ (0 : BitVec 4).toNat ∧ (3 : BitVec 4).toNat ≤ 3 ∧ ¬ ∃ e, e < 262144 ∧ zeroPlane.read e = none := by
  refine ⟨⟨rfl, by decide, by decide, 0, by decide, rfl⟩, by decide, by decide, ?_⟩
  rintro ⟨e, he, hn⟩
  have := zeroPlane_written e he
  simp [hn] at this

theorem witness_PlaneReadReturnsCell :
    (0x20000 ≤ (0x20000 : BitVec 19).toNat ∧ (0x5FFFF : BitVec 19).toNat ≤ 0x5FFFF) ∧
    (withStatus true false false 0).status.busy = true ∧ State.reset.status.busy = false ∧
    State.reset.plane.read ((0x20000 : BitVec 19).toNat - 0x20000) = none ∧
    Memory.read [(262143, 9)] ((0x5FFFF : BitVec 19).toNat - 0x20000) = some 9 := by decide

theorem witness_PlaneWriteStoresCell :
    (0x20000 ≤ (0x20000 : BitVec 19).toNat ∧ (0x5FFFF : BitVec 19).toNat ≤ 0x5FFFF) ∧
    (withStatus true false false 0).status.busy = true ∧ State.reset.status.busy = false ∧
    State.reset.plane.wf = true := by decide

theorem witness_PlaneFieldOutsideWindowIsBusError :
    (0x1FFFF : BitVec 19).toNat < 0x20000 ∧ 0x5FFFF < (0x60000 : BitVec 19).toNat := by decide

/-- A next state of a write, of a held access and of a command: the frame's clauses each apply to one. -/
theorem witness_InstructionFrames :
    (∃ t, exec (.wrStatus 6) (withStatus false true true 2) = .next t) ∧
    (∃ t, exec (.planeWr 0x20000 7) (withStatus true false false 0) = .next t) ∧
    (∃ t, exec (.decompose 0) .reset = .next t) ∧ ∃ t, exec .rdStatus .reset = .next t :=
  ⟨⟨_, rfl⟩, ⟨_, rfl⟩, ⟨_, rfl⟩, ⟨_, rfl⟩⟩

/-- The reset state with the host to move next, a transaction queued. -/
def hostTurn (t : Txn) : State := { State.reset with queue := [t], sched := [.host] }

/-- The reset state with the host to move next, a transaction held. -/
def heldTurn (t : Txn) : State := { State.reset with held := some t, sched := [.host] }

theorem witness_StepRunsDecodedTransaction :
    ((hostTurn (.read 0x00C 4)).mark = none ∧ (hostTurn (.read 0x00C 4)).held = none ∧
      (hostTurn (.read 0x00C 4)).queue = [.read 0x00C 4] ∧ (hostTurn (.read 0x00C 4)).sched = [.host] ∧
      decodeTxn (.read 0x00C 4) = .ok .rdStatus) ∧
    ((heldTurn (.read 0x100000 8)).mark = none ∧ (heldTurn (.read 0x100000 8)).held = some (.read 0x100000 8) ∧
      (heldTurn (.read 0x100000 8)).status.busy = false ∧ (heldTurn (.read 0x100000 8)).sched = [.host] ∧
      decodeTxn (.read 0x100000 8) = .ok (.planeRd 0x20000)) := by decide

theorem witness_BusErrorChangesNothing :
    ((hostTurn (.read 0x014 4)).mark = none ∧ (hostTurn (.read 0x014 4)).held = none ∧
      (hostTurn (.read 0x014 4)).queue = [.read 0x014 4] ∧ (hostTurn (.read 0x014 4)).sched = [.host] ∧
      decodeTxn (.read 0x014 4) = .error .unmapped) ∧
    (decodeTxn (.read 0x000 4) = .ok .rdId ∧ ∃ u, exec .rdId .reset = .next u) ∧
    (heldTurn (.read 0x100000 8)).held = some (.read 0x100000 8) :=
  ⟨by decide, ⟨by decide, _, rfl⟩, rfl⟩

/-- Each of the three agents enabled and named by the schedule; and a state with neither host nor sequencer enabled. -/
theorem witness_AnyEnabledAgentMayMove :
    enabled (hostTurn (.read 0x00C 4)) .host = true ∧
    enabled { withStatus true false false 0 with sched := [.sequencer] } .sequencer = true ∧
    enabled { State.reset with sched := [.reset] } .reset = true ∧
    enabled State.reset .host = false ∧ enabled State.reset .sequencer = false := by decide

/-- A held write while BUSY, the host named but not enabled: the sequencer moves (L = 0). -/
theorem witness_HeldTransactionKeepsItsPlace :
    ∃ s t h, s.held = some h ∧ step s = .next t ∧ s.status.busy = true ∧ nextAgent s ≠ some .reset :=
  ⟨{ withStatus true false false 0 with seq := .run .decompose 0, held := some (.read 0x100000 8), sched := [.host] },
    _, _, rfl, rfl, rfl, by decide⟩

theorem witness_TransactionsAreConserved : ∃ t, step (hostTurn (.read 0x00C 4)) = .next t := ⟨_, rfl⟩

theorem witness_NoPlaneAccessWhileBusy :
    (∃ s t, s.status.busy = true ∧ step s = .next t ∧ hostRuns s (.planeRd 0x20000)) ∧
    (∃ s t, s.status.busy = true ∧ step s = .next t ∧ hostRuns s (.planeWr 0x5FFFF 1)) :=
  ⟨⟨{ withStatus true false false 0 with queue := [.read 0x100000 8], sched := [.host] }, _, rfl, rfl, rfl, _, _, rfl,
      rfl⟩,
    ⟨{ withStatus true false false 0 with queue := [.write 0x2FFFF8 [1, 0, 0, 0, 0, 0, 0, 0]], sched := [.host] }, _,
      rfl, rfl, rfl, _, _, rfl, rfl⟩⟩

theorem witness_StatusWriteRacesCompletion :
    ∃ s : State, s.mark = none ∧ s.held = none ∧ s.seq = .run .decompose 0 ∧ s.status = ⟨true, false, false, 0⟩ ∧
      s.queue = [.write 0x00C [2, 0, 0, 0]] :=
  ⟨{ withStatus true false false 0 with seq := .run .decompose 0, queue := [.write 0x00C [2, 0, 0, 0]] },
    rfl, rfl, rfl, rfl, rfl⟩

/-- One row pass has a result on a plane whose cells are all written, and keeps them so. -/
theorem rowPass_written {f : Lifter} {k : Nat} {w : Work} (h : ∀ e, e < 262144 → (w.1.read e).isSome = true) :
    ∃ w', rowPass f Config.geom k w = some w' ∧ ∀ e, e < 262144 → (w'.1.read e).isSome = true := by
  obtain ⟨w', hw⟩ := liftLines_of_written (f := f) (lines := rowLines Config.geom k) (w := w) fun line hl e he => by
    obtain ⟨r, c, hr, hc, rfl⟩ := mem_rowLines_cells.mp ⟨line, hl, he⟩
    exact h _ (index_lt (g := Config.geom) (hr.trans_le (activeH_le ..)) (hc.trans_le (activeW_le ..)))
  exact ⟨w', hw, fun e he => (liftLines_isSome hw e).trans (h e he)⟩

/-- The same of a column pass. -/
theorem colPass_written {f : Lifter} {k : Nat} {w : Work} (h : ∀ e, e < 262144 → (w.1.read e).isSome = true) :
    ∃ w', colPass f Config.geom k w = some w' ∧ ∀ e, e < 262144 → (w'.1.read e).isSome = true := by
  obtain ⟨w', hw⟩ := liftLines_of_written (f := f) (lines := colLines Config.geom k) (w := w) fun line hl e he => by
    obtain ⟨r, c, hr, hc, rfl⟩ := mem_colLines_cells.mp ⟨line, hl, he⟩
    exact h _ (index_lt (g := Config.geom) (hr.trans_le (activeH_le ..)) (hc.trans_le (activeW_le ..)))
  exact ⟨w', hw, fun e he => (liftLines_isSome hw e).trans (h e he)⟩

/-- The passes run one after the other, whatever they are. -/
theorem one_pass {α : Type} (p : α → Nat → Option α) {w b : α} (h0 : p w 0 = some b) :
    (List.range 1).foldlM p w = some b := by simp [h0]

theorem two_passes {α : Type} (p : α → Nat → Option α) {w b d : α} (h0 : p w 0 = some b) (h1 : p b 1 = some d) :
    (List.range 2).foldlM p w = some d := by simp [List.range_succ, h0, h1]

/-- Both operations running on a full plane, the sequencer to move next: #1 has a result. -/
theorem witness_CompletionStep :
    (∃ (s : State) (p : Memory) (lb : List Val), s.mark = none ∧ s.sched = [.sequencer] ∧ s.seq = .run .decompose 1 ∧
      decPlane Config.liftFwd Config.geom 1 (s.plane, s.lb) = some (p, lb)) ∧
    (∃ (s : State) (p : Memory) (lb : List Val), s.mark = none ∧ s.sched = [.sequencer] ∧ s.seq = .run .reconstruct 1 ∧
      recPlane Config.liftInv Config.geom 1 (s.plane, s.lb) = some (p, lb)) := by
  constructor
  · obtain ⟨a, ha, hw⟩ := rowPass_written (f := Config.liftFwd) (k := 0) (w := (zeroPlane, [])) zeroPlane_written
    obtain ⟨⟨p, lb⟩, hb, -⟩ := colPass_written (f := Config.liftFwd) (k := 0) hw
    refine ⟨{ State.reset with plane := zeroPlane, seq := .run .decompose 1, sched := [.sequencer] }, p, lb, rfl, rfl, rfl,
      ?_⟩
    exact one_pass (decPass Config.liftFwd Config.geom) (w := (zeroPlane, [])) (by rw [decPass, ha, Option.bind_some, hb])
  · obtain ⟨a, ha, hw⟩ := colPass_written (f := Config.liftInv) (k := 0) (w := (zeroPlane, [])) zeroPlane_written
    obtain ⟨⟨p, lb⟩, hb, -⟩ := rowPass_written (f := Config.liftInv) (k := 0) hw
    refine ⟨{ State.reset with plane := zeroPlane, seq := .run .reconstruct 1, sched := [.sequencer] }, p, lb, rfl, rfl,
      rfl, ?_⟩
    exact one_pass (recPass Config.liftInv Config.geom) (w := (zeroPlane, [])) (by rw [recPass, ha, Option.bind_some, hb])

theorem witness_TransformHasResult : ∀ e, e < 262144 → (zeroPlane.read e).isSome = true := zeroPlane_written

/-- Both commands queued in an idle block: #3 on a full plane, #0 on the empty one. -/
theorem witness_CommandRunsToCompletion :
    (∃ s : State, s.mark = none ∧ s.held = none ∧ s.status.busy = false ∧ (3 : BitVec 4).toNat ≤ 3 ∧
      (∀ e, e < 262144 → (s.plane.read e).isSome = true) ∧ s.sched = [.host, .sequencer] ∧
      s.queue = [.write 0x008 (lanes 4 ((3 : BitVec 4).setWidth 32 <<< 4 ||| (1 : Word)))]) ∧
    (∃ s : State, s.mark = none ∧ s.held = none ∧ s.status.busy = false ∧ ¬ 1 ≤ (0 : BitVec 4).toNat ∧
      s.sched = [.host, .sequencer] ∧
      s.queue = [.write 0x008 (lanes 4 ((0 : BitVec 4).setWidth 32 <<< 4 ||| (2 : Word)))]) :=
  ⟨⟨{ State.reset with
        plane := zeroPlane, sched := [.host, .sequencer], queue := [.write 0x008 [0x31, 0, 0, 0]] },
      rfl, rfl, rfl, by decide, zeroPlane_written, rfl, by decide⟩,
    ⟨{ State.reset with sched := [.host, .sequencer], queue := [.write 0x008 [0x02, 0, 0, 0]] },
      rfl, rfl, rfl, by decide, rfl, by decide⟩⟩

theorem witness_RunningCommandEnds : ∃ s : State, s.mark = none ∧ s.seq ≠ .idle :=
  ⟨{ withStatus true false false 0 with sched := [.host, .host, .reset] }, rfl, by decide⟩

/-- A plane of 4 columns and 2 rows: its active region of pass index 1 is 2 by 1. -/
theorem witness_RowPassLiftsActiveRows :
    (∀ r c, r < (⟨4, 2⟩ : Geom).h >>> 1 → c < (⟨4, 2⟩ : Geom).w >>> 1 → (Memory.read [(0, 5), (1, 6)] (r * 4 + c)).isSome = true) ∧
    0 < (⟨4, 2⟩ : Geom).h >>> 1 ∧ 1 < (⟨4, 2⟩ : Geom).w >>> 1 := by
  refine ⟨fun r c hr hc => ?_, by decide⟩
  have hr : r < 1 := hr
  have hc : c < 2 := hc
  interval_cases r
  interval_cases c <;> rfl

/-- A plane of 2 columns and 4 rows: its active region of pass index 1 is 1 by 2. -/
theorem witness_ColPassLiftsActiveColumns :
    (∀ r c, r < (⟨2, 4⟩ : Geom).h >>> 1 → c < (⟨2, 4⟩ : Geom).w >>> 1 → (Memory.read [(0, 5), (2, 6)] (r * 2 + c)).isSome = true) ∧
    1 < (⟨2, 4⟩ : Geom).h >>> 1 ∧ 0 < (⟨2, 4⟩ : Geom).w >>> 1 := by
  refine ⟨fun r c hr hc => ?_, by decide⟩
  have hr : r < 2 := hr
  have hc : c < 1 := hc
  interval_cases r <;> interval_cases c <;> rfl

/-- The lines of a pass in descending order. -/
theorem witness_LineOrderDoesNotMatter :
    Memory.wfIn 4 (planeOf [1, 2, 3, 4]) = true ∧ (rowLines ⟨2, 2⟩ 0).reverse.Perm (rowLines ⟨2, 2⟩ 0) ∧
    (colLines ⟨2, 2⟩ 0).reverse.Perm (colLines ⟨2, 2⟩ 0) ∧ (rowLines ⟨2, 2⟩ 0).reverse ≠ rowLines ⟨2, 2⟩ 0 :=
  ⟨by decide, List.reverse_perm _, List.reverse_perm _, by decide⟩

/-- An exactly inverse pair, both ends of LEVELS, a full plane. -/
theorem witness_ReconstructUndoesDecompose :
    ExactInverse (fun _ v => v.reverse) (fun _ v => v.reverse) ∧ 0 ≤ 3 ∧ 3 ≤ 3 ∧ zeroPlane.wf = true ∧
    ∀ e, e < 262144 → (zeroPlane.read e).isSome = true :=
  ⟨fun _ _ v => by simp, by decide, by decide, zeroPlane_wf, zeroPlane_written⟩

theorem witness_TransformsKeepCellsWritten :
    (∃ w', decPlane nl ⟨2, 2⟩ 1 (planeOf [1, 2, 3, 4], []) = some w') ∧
    (∃ w', recPlane nlInv ⟨2, 2⟩ 1 (planeOf [1, 2, 3, 4], []) = some w') :=
  ⟨Option.isSome_iff_exists.mp (by decide +kernel), Option.isSome_iff_exists.mp (by decide +kernel)⟩

/-- DECOMPOSE #2 after #1 on a full plane, and a cell outside LL1. -/
theorem witness_LaterPassesRewriteOnlyLL :
    (∃ w' w'', decPlane perm Config.geom 1 (zeroPlane, []) = some w' ∧
      decPlane perm Config.geom 2 (zeroPlane, []) = some w'') ∧
    ¬ (255 < 512 >>> 1 ∧ 256 < 512 >>> 1) := by
  obtain ⟨a, ha, hw⟩ := rowPass_written (f := perm) (k := 0) (w := (zeroPlane, [])) zeroPlane_written
  obtain ⟨b, hb, hw⟩ := colPass_written (f := perm) (k := 0) hw
  obtain ⟨c, hc, hw⟩ := rowPass_written (f := perm) (k := 1) hw
  obtain ⟨d, hd, -⟩ := colPass_written (f := perm) (k := 1) hw
  have h0 : decPass perm Config.geom (zeroPlane, []) 0 = some b := by rw [decPass, ha, Option.bind_some, hb]
  have h1 : decPass perm Config.geom b 1 = some d := by rw [decPass, hc, Option.bind_some, hd]
  exact ⟨⟨b, d, one_pass _ h0, two_passes _ h0 h1⟩, by decide⟩

theorem witness_SubbandsTileThePlane : (1 ≤ 1 ∧ 3 ≤ 3) ∧ 0 < 512 ∧ 511 < 512 := by decide

theorem witness_CanonicalSubbandLayout :
    (Band.lh, 2) ∈ bandsAfter 3 ∧ inBand Config.geom .lh 2 128 0 = true ∧ inBand Config.geom .lh 2 255 127 = true := by
  decide

theorem witness_CodecQuadsCoverSubbands :
    inBand Config.geom .lh 3 127 63 = true ∧ inBand Config.geom .hl 3 63 127 = true ∧ 3 < 4 ∧
    lh3Quad 1023 3 = (127, 63) ∧ hl3Quad 1023 3 = (63, 127) := by decide

/-- Reset while a command runs and a read is held. -/
theorem witness_ResetStep :
    ∃ s : State, s.mark = none ∧ s.sched = [.reset] ∧ s.status.busy = true ∧ s.held.isSome = true :=
  ⟨{ withStatus true false false 0 with held := some (.read 0x100000 8), sched := [.reset] }, rfl, rfl, rfl, rfl⟩

theorem witness_FaultMarkStays :
    step (hostTurn (.read 0x100000 8)) = .fault .uninitRead ∧
    { State.reset with mark := some Fault.uninitRead }.mark = some .uninitRead := ⟨rfl, rfl⟩

/-- A state of the invariant that is not the reset state: a command runs, a rejection is recorded, a read is held. -/
def busyState : State :=
  { withStatus true false true 3 with
    seq := .run .decompose 0, plane := [(262143, 5)], held := some (.read 0x100000 8), sched := [.host, .host] }

theorem busyState_inv : busyState.Inv where
  plane_wf := by decide
  busy_iff := by decide
  not_busy_done := by decide
  errcode_zero_iff := by decide
  errcode_le := by decide
  levels_le := by rintro op l h; cases h; decide
  run_written := by rintro op l h hl; cases h; cases hl
  lb_length := by decide
  held_plane := by rintro t h; cases h; decide

theorem witness_StepKeepsInv : ∃ t, busyState.Inv ∧ step busyState = .next t := ⟨_, busyState_inv, rfl⟩

theorem witness_RunningCommandCompletes :
    busyState.mark = none ∧ busyState.Inv ∧ busyState.seq ≠ .idle ∧ Agent.reset ∉ busyState.sched :=
  ⟨rfl, busyState_inv, by decide, by decide⟩

/-- An idle state of the invariant in which the host takes a transaction next. -/
theorem hostTurn_inv (t : Txn) : (hostTurn t).Inv where
  plane_wf := rfl
  busy_iff := by simp [hostTurn, State.reset]
  not_busy_done := by simp [hostTurn, State.reset]
  errcode_zero_iff := by simp [hostTurn, State.reset]
  errcode_le := by simp [hostTurn, State.reset]
  levels_le := by rintro op l h; cases h
  run_written := by rintro op l h; cases h
  lb_length := Nat.zero_le _
  held_plane := by rintro t h; cases h

/-- The two places of the fault, at the first and the last cell and with L at its two ends; and a step at neither: L = 0. -/
theorem witness_StepFaultsOnlyWhereListed :
    (∀ t, (hostTurn t).mark = none ∧ (hostTurn t).Inv ∧ (hostTurn t).status.busy = false) ∧
    hostRuns (hostTurn (.read 0x00100000 8)) (.planeRd 0x20000) ∧ hostRuns (hostTurn (.read 0x002FFFF8 8)) (.planeRd 0x5FFFF) ∧
    hostRuns (hostTurn (.write 0x008 [0x11, 0, 0, 0])) (.wrCmd 0x11) ∧
    hostRuns (hostTurn (.write 0x008 [0x32, 0, 0, 0])) (.wrCmd 0x32) ∧
    (step (hostTurn (.write 0x008 [0x32, 0, 0, 0])) = .fault .uninitRead ∧
      ∃ t, step (hostTurn (.write 0x008 [0x02, 0, 0, 0])) = .next t) :=
  ⟨fun t => ⟨rfl, hostTurn_inv t, rfl⟩, ⟨rfl, _, _, rfl, rfl⟩, ⟨rfl, _, _, rfl, rfl⟩, ⟨rfl, _, _, rfl, rfl⟩,
    ⟨rfl, _, _, rfl, rfl⟩, rfl, _, rfl⟩

/-- One step for each clause of R34: accepted, completed, DONE and ERR cleared, rejected. -/
theorem witness_FlagsChangeOnlyWhereListed :
    (∃ s t, step s = .next t ∧ s.status.busy = false ∧ t.status.busy = true ∧ s.status.done = true ∧
      t.status.done = false) ∧
    (∃ s t, step s = .next t ∧ s.status.busy = true ∧ t.status.busy = false ∧ s.status.done = false ∧
      t.status.done = true) ∧
    (∃ s t, step s = .next t ∧ s.status.done = true ∧ t.status.done = false ∧ s.status.err = true ∧
      t.status.err = false ∧ t.status.errcode ≠ s.status.errcode) ∧
    (∃ s t, step s = .next t ∧ s.status.err = false ∧ t.status.err = true ∧ t.status.errcode ≠ s.status.errcode) :=
  ⟨⟨{ withStatus false true false 0 with queue := [.write 0x008 [1, 0, 0, 0]], sched := [.host] }, _, rfl, rfl, rfl, rfl,
      rfl⟩,
    ⟨{ withStatus true false false 0 with seq := .run .decompose 0, sched := [.sequencer] }, _, rfl, rfl, rfl, rfl, rfl⟩,
    ⟨{ withStatus false true true 2 with queue := [.write 0x00C [6, 0, 0, 0]], sched := [.host] }, _, rfl, rfl, by decide,
      rfl, by decide, by decide⟩,
    ⟨{ withStatus false true false 0 with queue := [.write 0x008 [3, 0, 0, 0]], sched := [.host] }, _, rfl, rfl, rfl,
      by decide⟩⟩

theorem witness_PlaneChangesOnlyWhereListed : ∃ s t, step s = .next t ∧ t.plane ≠ s.plane :=
  ⟨hostTurn (.write 0x2FFFF8 [1, 0, 0, 0, 0, 0, 0, 0]), _, rfl, by decide⟩

theorem witness_LineBufferIsInvisible :
    SameButLb State.reset { State.reset with lb := [1] } ∧ State.reset ≠ { State.reset with lb := [1] } :=
  ⟨rfl, by decide⟩

theorem witness_IrqFollowsFlags : (withStatus false true false 0).status.done = true := rfl

/-- The table's number of a command, of a register read and of the last cell's read. -/
theorem witness_PlacedWordRunsNext :
    decodeTableWord 32 0x00000031 = some (.decompose 3) ∧ decodeTableWord 32 0x0000000C = some .rdStatus ∧
    decodeTableWord 32 0x002FFFF8 = some (.planeRd 0x5FFFF) := by decide

/-- The host waits for a read; one read completes `OKAY`, one `ERR`. -/
theorem witness_HostNotationResponses :
    (∃ y b r, System.waiting y = some (.read 3) ∧ step y.block = .next b ∧ b.responses = y.block.responses ++ [.okay r]) ∧
    (∃ y b, System.waiting y = some (.read 3) ∧ step y.block = .next b ∧ b.responses = y.block.responses ++ [.err]) :=
  ⟨⟨⟨[], Vector.replicate 8 0, 0, some (.read 3), hostTurn (.read 0x000 4)⟩, _, _, rfl, rfl, rfl⟩,
    ⟨⟨[], Vector.replicate 8 0, 0, some (.read 3), hostTurn (.read 0x000 8)⟩, _, rfl, rfl, rfl⟩⟩

end Sys2Proof.Tests
end

section
/-! SUPPORT. The scope statements (00_scope.md): which agent a step moves, and that the host port loses no transaction. -/

namespace Sys2Proof.Machine

/-! ### The agent that moves (R174) -/

/-- The schedule's head moves if it is enabled. -/
theorem nextAgent_of_sched {s : State} {a : Agent} {sch : List Agent} (hs : s.sched = a :: sch)
    (ha : enabled s a = true) : nextAgent s = some a := by
  simp [nextAgent, hs, ha]

theorem defaultAgent_eq_none {s : State} (h : defaultAgent s = none) :
    enabled s .sequencer = false ∧ enabled s .host = false := by
  unfold defaultAgent at h
  split at h
  · cases h
  · split at h
    · cases h
    · exact ⟨eq_false_of_ne_true ‹_›, eq_false_of_ne_true ‹_›⟩

/-- No agent is chosen only when the two that can be disabled are. -/
theorem nextAgent_eq_none {s : State} (h : nextAgent s = none) :
    enabled s .sequencer = false ∧ enabled s .host = false := by
  unfold nextAgent at h
  split at h
  · split at h
    · cases h
    · exact defaultAgent_eq_none h
  · exact defaultAgent_eq_none h

/-- The chosen agent makes the step of an unmarked state. -/
theorem step_of_nextAgent {s : State} {a : Agent} (hm : s.mark = none) (ha : nextAgent s = some a) :
    step s = agentStep a s.tick := by
  simp [step, blockStep, hm, moveStep, ha]

/-- With no agent to move, the step uses up the schedule's head and nothing else. -/
theorem step_of_nextAgent_none {s : State} (hm : s.mark = none) (ha : nextAgent s = none) : step s = .next s.tick := by
  simp [step, blockStep, hm, moveStep, ha]

/-! ### What becomes of a transaction the port performs (R60, R146) -/

/-- Between `s` and `t` the transaction in hand was answered, and the port and the queue are as they were. -/
def Answers (s t : State) : Prop := t.queue = s.queue ∧ t.held = s.held ∧ ∃ r, t.responses = s.responses ++ [r]

/-- The transaction in hand was answered or, the block being BUSY, kept by the port (R146). -/
def AnswersOrHolds (s t : State) : Prop := Answers s t ∨ (s.status.busy = true ∧ ∃ tx, t = s.hold tx)

/-- A response on a state with the same port, queue and past responses is an answer. -/
theorem answers_respond {s u : State} (r : Response) (hq : u.queue = s.queue) (hh : u.held = s.held)
    (hr : u.responses = s.responses) : Answers s (u.respond r) :=
  ⟨hq, hh, r, by simp [hr]⟩

theorem startTransform_answers {op : Op} {levels : BitVec 4} {s t : State} (h : startTransform op levels s = .next t) :
    Answers s t := by
  rcases startTransform_cases h with ⟨-, rfl⟩ | ⟨-, -, rfl⟩ | ⟨-, -, -, rfl⟩
  all_goals exact answers_respond _ rfl rfl rfl

theorem execWrCmd_answers {w : Word} {s t : State} (h : execWrCmd w s = .next t) : Answers s t := by
  rcases execWrCmd_cases h with rfl | ⟨_, -, rfl⟩ | ⟨_, _, -, -, -, rfl⟩
  all_goals exact answers_respond _ rfl rfl rfl

theorem execPlaneRd_answersOrHolds {cell : BitVec 19} {s t : State} (h : execPlaneRd cell s = .next t) :
    AnswersOrHolds s t := by
  rcases execPlaneRd_cases h with ⟨-, rfl⟩ | ⟨-, hb, rfl⟩ | ⟨_, -, -, -, rfl⟩
  · exact .inl (answers_respond _ rfl rfl rfl)
  · exact .inr ⟨hb, _, rfl⟩
  · exact .inl (answers_respond _ rfl rfl rfl)

theorem execPlaneWr_answersOrHolds {cell : BitVec 19} {d : Val} {s t : State} (h : execPlaneWr cell d s = .next t) :
    AnswersOrHolds s t := by
  rcases execPlaneWr_cases h with ⟨-, rfl⟩ | ⟨-, hb, rfl⟩ | ⟨-, -, rfl⟩
  · exact .inl (answers_respond _ rfl rfl rfl)
  · exact .inr ⟨hb, _, rfl⟩
  · exact .inl ⟨rfl, rfl, _, rfl⟩

/-- Every instruction answers its transaction once, but a plane access while BUSY, which the port holds. -/
theorem exec_answersOrHolds {i : Instr} {s t : State} (h : exec i s = .next t) : AnswersOrHolds s t := by
  cases i with
  | decompose _ | reconstruct _ => exact .inl (startTransform_answers h)
  | wrCmd _ => exact .inl (execWrCmd_answers h)
  | planeRd _ => exact execPlaneRd_answersOrHolds h
  | planeWr _ _ => exact execPlaneWr_answersOrHolds h
  | nop _ | rdId | wrId _ | rdInfo | wrInfo _ | rdCmd | rdStatus | wrStatus _ | rdIrqEn | wrIrqEn _ =>
    injection h with h
    subst h
    exact .inl (answers_respond _ rfl rfl rfl)

theorem serve_answersOrHolds {tx : Txn} {s t : State} (h : serve tx s = .next t) : AnswersOrHolds s t := by
  rcases serve_cases h with ⟨_, -, rfl⟩ | ⟨_, -, h⟩
  · exact .inl (answers_respond _ rfl rfl rfl)
  · exact exec_answersOrHolds h

/-! ### Conservation -/

theorem transactions_of_held {s : State} {tx : Txn} (h : s.held = some tx) :
    s.transactions = s.responses.length + 1 + s.queue.length := by
  simp [State.transactions, h]

theorem transactions_of_held_none {s : State} (h : s.held = none) :
    s.transactions = s.responses.length + s.queue.length := by
  simp [State.transactions, h]

/-- Reset answers a held transaction `ERR`, so the count stands (R201). -/
theorem transactions_resetEvent (s : State) : s.resetEvent.transactions = s.transactions := by
  rw [transactions_of_held_none s.resetEvent_held, State.resetEvent_responses]
  cases hh : s.held with
  | some tx => simp [transactions_of_held hh]
  | none => simp [transactions_of_held_none hh]

/-- Taking a transaction frees the port and takes one out of the count; the queue loses its head or nothing (R60). -/
theorem takeTxn_counts {s s' : State} {tx : Txn} (h : takeTxn s = some (tx, s')) :
    s'.held = none ∧ s'.responses = s.responses ∧ s.transactions = s'.transactions + 1 ∧
      (s'.queue = s.queue ∨ ∃ x, s.queue = x :: s'.queue) := by
  rcases takeTxn_cases h with ⟨hh, rfl⟩ | ⟨hh, rest, hq, rfl⟩
  · refine ⟨rfl, rfl, ?_, .inl rfl⟩
    rw [transactions_of_held hh, transactions_of_held_none rfl]
    exact Nat.add_right_comm ..
  · refine ⟨hh, rfl, ?_, .inr ⟨tx, hq⟩⟩
    rw [transactions_of_held_none hh, transactions_of_held_none (s := { s with queue := rest }) hh, hq]
    rfl

/-- From a free port, the transaction in hand is back in the count: answered or held. -/
theorem AnswersOrHolds.counts {s t : State} (h : AnswersOrHolds s t) (hh : s.held = none) :
    (∃ r, t.responses = s.responses ++ r ∧ r.length ≤ 1) ∧ t.transactions = s.transactions + 1 ∧
      t.queue = s.queue := by
  rw [transactions_of_held_none hh]
  rcases h with ⟨hq, ht, r, hr⟩ | ⟨-, tx, rfl⟩
  · refine ⟨⟨[r], hr, le_rfl⟩, ?_, hq⟩
    rw [transactions_of_held_none (ht.trans hh), hr, hq, List.length_append, List.length_singleton]
    omega
  · refine ⟨⟨[], by simp⟩, ?_, rfl⟩
    rw [transactions_of_held (State.hold_held tx s), State.hold_responses, State.hold_queue]
    omega

/-- The responses after a reset: at most one more (R201). -/
theorem resetEvent_responses_append (s : State) :
    ∃ r, s.resetEvent.responses = s.responses ++ r ∧ r.length ≤ 1 := by
  rw [State.resetEvent_responses]
  cases s.held with
  | some _ => exact ⟨[.err], rfl, le_rfl⟩
  | none => exact ⟨[], by simp⟩

/-! ### The obligations -/

/-- Settles O29, by the agent that moved: the host takes one transaction and answers or holds it, reset answers the held
one, the sequencer touches none. -/
theorem transactionsAreConserved : Obligations.TransactionsAreConserved := by
  unfold Obligations.TransactionsAreConserved
  intro s t h
  obtain ⟨-, ⟨-, rfl⟩ | ⟨-, _, _, _, -, -, rfl⟩ | ⟨-, tx, s', htake, hserve⟩ | ⟨-, rfl⟩⟩ := step_cases h
  · exact ⟨resetEvent_responses_append s.tick, transactions_resetEvent s.tick, .inl rfl⟩
  · exact ⟨⟨[], by simp⟩, rfl, .inl rfl⟩
  · obtain ⟨hfree, hresp, hcount, hqueue⟩ := takeTxn_counts htake
    obtain ⟨hadd, hback, hkeep⟩ := (serve_answersOrHolds hserve).counts hfree
    rw [hresp] at hadd
    rw [← hkeep] at hqueue
    exact ⟨hadd, hback.trans hcount.symm, hqueue⟩
  · exact ⟨⟨[], by simp⟩, rfl, .inl rfl⟩

/-- Settles O27, by the choice of the agent that moves. -/
theorem anyEnabledAgentMayMove : Obligations.AnyEnabledAgentMayMove := by
  unfold Obligations.AnyEnabledAgentMayMove
  refine ⟨fun s a sch hm hs ha => ?_, fun s hm => ?_, fun s => ⟨rfl, enabled_sequencer, enabled_host⟩⟩
  · rw [step_of_nextAgent hm (nextAgent_of_sched hs ha), State.tick, hs, List.tail_cons]
  · cases hn : nextAgent s with
    | some a => exact .inl ⟨a, nextAgent_enabled hn, step_of_nextAgent hm hn⟩
    | none =>
      obtain ⟨hseq, hhost⟩ := nextAgent_eq_none hn
      exact .inr ⟨hseq, hhost, step_of_nextAgent_none hm hn⟩

end Sys2Proof.Machine
end

section
/-! SUPPORT. The state statements (10_state.md): what an instruction changes and leaves unchanged, the invariant of the
block's state, the places where a flag or the plane changes and where a step faults, the line buffer, the registers, reset. -/

namespace Sys2Proof.Machine

/-! ### A transform as one list of lines (R107, R108) -/

/-- Passes that each lift a list of lines, run one after the other, lift the lines of all passes. -/
theorem foldlM_liftLines {f : Lifter} {pass : Work → Nat → Option Work} {lines : Nat → List (List Nat)}
    (h : ∀ w k, pass w k = liftLines f (lines k) w) (ks : List Nat) (w : Work) :
    ks.foldlM pass w = liftLines f (ks.flatMap lines) w := by
  induction ks generalizing w with
  | nil => rfl
  | cons k ks ih =>
    rw [List.foldlM_cons, List.flatMap_cons, liftLines_append, h]
    exact congrArg (Option.bind _) (funext ih)

theorem decPlane_eq_liftLines (f : Lifter) (g : Geom) (l : Nat) (w : Work) :
    decPlane f g l w = liftLines f (decLines g l) w :=
  foldlM_liftLines (fun w k => (liftLines_append f (rowLines g k) (colLines g k) w).symm) _ w

theorem recPlane_eq_liftLines (f : Lifter) (g : Geom) (l : Nat) (w : Work) :
    recPlane f g l w = liftLines f (recLines g l) w :=
  foldlM_liftLines (fun w k => (liftLines_append f (colLines g k) (rowLines g k) w).symm) _ w

/-- Settles O45, by the lines that each transform lifts. -/
theorem transformsKeepCellsWritten : Obligations.TransformsKeepCellsWritten := by
  unfold Obligations.TransformsKeepCellsWritten
  rintro f g l w w' (h | h) e
  · exact liftLines_isSome (decPlane_eq_liftLines f g l w ▸ h) e
  · exact liftLines_isSome (recPlane_eq_liftLines f g l w ▸ h) e

/-- The lifter of an operation on this hardware. -/
def opLifter : Op → Lifter
  | .decompose => Config.liftFwd
  | .reconstruct => Config.liftInv

/-- The lines an operation lifts on this hardware. -/
def opLines (op : Op) (l : Nat) : List (List Nat) :=
  match op with
  | .decompose => decLines Config.geom l
  | .reconstruct => recLines Config.geom l

theorem transform_eq_liftLines (op : Op) (l : Nat) (w : Work) :
    transform op l w = liftLines (opLifter op) (opLines op l) w := by
  cases op with
  | decompose => exact decPlane_eq_liftLines _ _ l w
  | reconstruct => exact recPlane_eq_liftLines _ _ l w

/-- Each line of a command is an active row or column of one of its passes. -/
theorem mem_opLines {op : Op} {l : Nat} {line : List Nat} (h : line ∈ opLines op l) :
    ∃ k < l, line ∈ rowLines Config.geom k ∨ line ∈ colLines Config.geom k := by
  cases op with
  | decompose => simpa [opLines, decLines] using h
  | reconstruct => simpa [opLines, recLines, or_comm] using h

theorem opLines_length {op : Op} {l : Nat} {line : List Nat} (h : line ∈ opLines op l) : line.length ≤ 512 := by
  obtain ⟨k, -, h | h⟩ := mem_opLines h
  · obtain ⟨r, -, rfl⟩ := mem_rowLines.mp h
    exact (rowLine_length ..).trans_le (activeW_le ..)
  · obtain ⟨c, -, rfl⟩ := mem_colLines.mp h
    exact (colLine_length ..).trans_le (activeH_le ..)

theorem opLines_lt {op : Op} {l : Nat} {line : List Nat} (h : line ∈ opLines op l) :
    ∀ e ∈ line, e < Config.cells := by
  intro e he
  obtain ⟨k, -, h⟩ := mem_opLines h
  obtain ⟨r, c, hr, hc, rfl⟩ := h.elim (fun h => mem_rowLines_cells.mp ⟨line, h, he⟩)
    (fun h => mem_colLines_cells.mp ⟨line, h, he⟩)
  exact index_lt (g := Config.geom) (hr.trans_le (activeH_le ..)) (hc.trans_le (activeW_le ..))

/-- A command keeps the plane in canonical form. -/
theorem transform_wf {op : Op} {l : Nat} {w w' : Work} (h : transform op l w = some w') (hm : w.1.wf = true) :
    w'.1.wf = true :=
  liftLines_wfIn (transform_eq_liftLines op l w ▸ h) hm fun _ => opLines_lt

/-- A command leaves the line buffer with at most 512 values (R36). -/
theorem transform_lb_length {op : Op} {l : Nat} {w w' : Work} (h : transform op l w = some w')
    (hw : w.2.length ≤ 512) : w'.2.length ≤ 512 :=
  liftLines_lb_length (transform_eq_liftLines op l w ▸ h) hw fun _ => opLines_length

theorem Memory.allWritten_iff (m : Memory) :
    m.allWritten = true ↔ ∀ e, e < 262144 → (m.read e).isSome = true := Memory.allWrittenIn_iff 262144 m

theorem Memory.allWritten_eq_false_iff (m : Memory) :
    m.allWritten = false ↔ ∃ e, e < 262144 ∧ m.read e = none := by
  rw [← Bool.not_eq_true, Memory.allWritten_iff]
  simp

/-- A command of no levels, or on a plane with no unwritten cell, has a result (R111). -/
theorem transform_isSome {op : Op} {l : Nat} {w : Work} (h : 1 ≤ l → w.1.allWritten = true) :
    ∃ w', transform op l w = some w' := by
  rw [transform_eq_liftLines]
  refine liftLines_of_written fun line hl e he => ?_
  obtain ⟨k, hk, -⟩ := mem_opLines hl
  exact (Memory.allWritten_iff _).mp (h (Nat.one_le_of_lt hk)) e (opLines_lt hl e he)

/-- The line buffer a command starts with never reaches the plane it leaves (R36). -/
theorem transform_fst_congr (op : Op) (l : Nat) (m : Memory) (lb lb' : List Val) :
    (transform op l (m, lb)).map Prod.fst = (transform op l (m, lb')).map Prod.fst := by
  rw [transform_eq_liftLines, transform_eq_liftLines]
  exact liftLines_fst_congr ..

/-! ### What an instruction does to the state -/

/-- The instructions that R110 may accept or reject: the two transform words, and the CMD write that carries a word. -/
def isCommand : Instr → Prop
  | .decompose _ | .reconstruct _ | .wrCmd _ => True
  | _ => False

/-- The plane accesses (R37). -/
def isPlaneAccess : Instr → Prop
  | .planeRd _ | .planeWr _ _ => True
  | _ => False

/-- The next states an instruction can leave, one rule for each kind of change. -/
inductive Executes (s : State) : Instr → State → Prop
  /-- A response and nothing else: the register reads, the writes that change nothing, a plane read, a bus error. -/
  | answer (i : Instr) (r : Response) : Executes s i (s.respond r)
  | acknowledge (d : Word) : Executes s (.wrStatus d) ((s.acknowledge d).respond (.okay []))
  | setIrqEn (d : Word) : Executes s (.wrIrqEn d) (State.respond (.okay []) { s with irqEn := IrqEn.ofWord d })
  | reject {i : Instr} {code : BitVec 4} (hi : isCommand i)
      (hcode : code = cmdWhileBusy ∨ code = badOpcode ∨ code = badLevels) :
      Executes s i ((s.reject code).respond (.okay []))
  | accept {i : Instr} {op : Op} {l : Nat} (hi : isCommand i) (hbusy : s.status.busy = false) (hl : l ≤ 3)
      (hw : 1 ≤ l → s.plane.allWritten = true) : Executes s i ((s.accept op l).respond (.okay []))
  | hold {i : Instr} {tx : Txn} (hi : isPlaneAccess i) (hbusy : s.status.busy = true)
      (htx : isPlaneTxn tx = true) : Executes s i (s.hold tx)
  | store {cell : BitVec 19} (d : Val) (hcell : planeFieldOk cell = true) (hbusy : s.status.busy = false) :
      Executes s (.planeWr cell d)
        (State.respond (.okay []) { s with plane := s.plane.write (cellIndex cell) d })

theorem startTransform_executes {i : Instr} {op : Op} {levels : BitVec 4} {s t : State} (hi : isCommand i)
    (h : startTransform op levels s = .next t) : Executes s i t := by
  rcases startTransform_cases h with ⟨-, rfl⟩ | ⟨-, -, rfl⟩ | ⟨hb, hl, hw, rfl⟩
  · exact .reject hi (.inl rfl)
  · exact .reject hi (.inr (.inr rfl))
  · exact .accept hi hb hl hw

theorem isPlaneTxn_planeReadTxn {cell : BitVec 19} (h : planeFieldOk cell = true) :
    isPlaneTxn (planeReadTxn cell) = true := by
  simp [isPlaneTxn, decodeTxn_planeReadTxn h]

theorem isPlaneTxn_planeWriteTxn {cell : BitVec 19} (d : Val) (h : planeFieldOk cell = true) :
    isPlaneTxn (planeWriteTxn cell d) = true := by
  simp [isPlaneTxn, decodeTxn_planeWriteTxn d h]

/-- What exec can answer with a next state. -/
theorem exec_executes {i : Instr} {s t : State} (h : exec i s = .next t) : Executes s i t := by
  cases i with
  | decompose _ | reconstruct _ => exact startTransform_executes trivial h
  | wrCmd _ =>
    rcases execWrCmd_cases h with rfl | ⟨_, hcode, rfl⟩ | ⟨_, _, hb, hl, hw, rfl⟩
    · exact .answer _ _
    · exact .reject trivial hcode
    · exact .accept trivial hb hl hw
  | planeRd _ =>
    rcases execPlaneRd_cases h with ⟨-, rfl⟩ | ⟨hc, hb, rfl⟩ | ⟨_, -, -, -, rfl⟩
    · exact .answer _ _
    · exact .hold trivial hb (isPlaneTxn_planeReadTxn hc)
    · exact .answer _ _
  | planeWr _ d =>
    rcases execPlaneWr_cases h with ⟨-, rfl⟩ | ⟨hc, hb, rfl⟩ | ⟨hc, hb, rfl⟩
    · exact .answer _ _
    · exact .hold trivial hb (isPlaneTxn_planeWriteTxn d hc)
    · exact .store d hc hb
  | wrStatus d => cases h; exact .acknowledge d
  | wrIrqEn d => cases h; exact .setIrqEn d
  | nop _ | rdId | wrId _ | rdInfo | wrInfo _ | rdCmd | rdStatus | rdIrqEn => cases h; exact .answer _ _

/-! ### The invariant (R30, R34 to R37, R111) -/

theorem inv_respond {s : State} (h : s.Inv) (r : Response) : (s.respond r).Inv := { h with }

theorem inv_tick {s : State} (h : s.Inv) : s.tick.Inv := { h with }

/-- The block's state after reset meets the invariant, whatever the host's side of it is. -/
theorem inv_resetEvent (s : State) : s.resetEvent.Inv where
  plane_wf := rfl
  busy_iff := by simp
  not_busy_done := by simp
  errcode_zero_iff := by simp
  errcode_le := by simp
  levels_le := nofun
  run_written := nofun
  lb_length := Nat.zero_le _
  held_plane := nofun

theorem inv_acknowledge {s : State} (h : s.Inv) (d : Word) : (s.acknowledge d).Inv :=
  { h with
    not_busy_done := by
      have := h.not_busy_done
      simp only [State.acknowledge_busy, State.acknowledge_done]
      split <;> simp_all
    errcode_zero_iff := by
      simp only [State.acknowledge_errcode, State.acknowledge_err]
      split
      · simp
      · exact h.errcode_zero_iff
    errcode_le := by
      simp only [State.acknowledge_errcode]
      split
      · exact Nat.zero_le 3
      · exact h.errcode_le }

/-- The error codes a rejection gives (R170). -/
theorem rejection_code_bounds {code : BitVec 4}
    (h : code = cmdWhileBusy ∨ code = badOpcode ∨ code = badLevels) : code ≠ 0 ∧ code.toNat ≤ 3 := by
  rcases h with rfl | rfl | rfl <;> decide

theorem inv_reject {s : State} (h : s.Inv) {code : BitVec 4}
    (hcode : code = cmdWhileBusy ∨ code = badOpcode ∨ code = badLevels) : (s.reject code).Inv :=
  have ⟨hne, hle⟩ := rejection_code_bounds hcode
  { h with
    errcode_zero_iff := by simpa using hne
    errcode_le := hle }

theorem inv_accept {s : State} (h : s.Inv) {op : Op} {l : Nat} (hl : l ≤ 3)
    (hw : 1 ≤ l → s.plane.allWritten = true) : (s.accept op l).Inv :=
  { h with
    busy_iff := by simp
    not_busy_done := by simp
    levels_le := by rintro _ _ ⟨⟩; exact hl
    run_written := by rintro _ _ ⟨⟩; exact hw }

theorem inv_hold {s : State} (h : s.Inv) {tx : Txn} (htx : isPlaneTxn tx = true) : (s.hold tx).Inv :=
  { h with held_plane := by rintro _ ⟨⟩; exact htx }

/-- A plane write is made while idle only, so no running command sees it (R146). -/
theorem inv_store {s : State} (h : s.Inv) {e : Nat} (v : Val) (he : e < Config.cells) (hb : s.status.busy = false) :
    State.Inv { s with plane := s.plane.write e v } :=
  { h with
    plane_wf := Memory.wf_write v h.plane_wf he
    run_written := fun op l hrun => by
      have := h.busy_iff.mpr (by simp [show s.seq = .run op l from hrun])
      simp [hb] at this }

theorem inv_finish {s : State} (h : s.Inv) {op : Op} {l : Nat} {w : Work}
    (hw : transform op l (s.plane, s.lb) = some w) : (s.finish w).Inv :=
  { h with
    plane_wf := transform_wf hw h.plane_wf
    busy_iff := by simp
    not_busy_done := by simp
    levels_le := nofun
    run_written := nofun
    lb_length := transform_lb_length hw h.lb_length }

theorem inv_takeTxn {s s' : State} {tx : Txn} (h : s.Inv) (htake : takeTxn s = some (tx, s')) : s'.Inv := by
  rcases takeTxn_cases htake with ⟨-, rfl⟩ | ⟨-, _, -, rfl⟩
  · exact { h with held_plane := nofun }
  · exact { h with }

theorem inv_of_executes {i : Instr} {s t : State} (h : s.Inv) (hexec : Executes s i t) : t.Inv := by
  cases hexec with
  | answer i r => exact inv_respond h r
  | acknowledge d => exact inv_respond (inv_acknowledge h d) _
  | setIrqEn d => exact { h with }
  | reject _ hcode => exact inv_respond (inv_reject h hcode) _
  | accept _ _ hl hw => exact inv_respond (inv_accept h hl hw) _
  | hold _ _ htx => exact inv_hold h htx
  | store d hcell hbusy => exact inv_respond (inv_store h d (cellIndex_lt hcell) hbusy) _

theorem inv_serve {tx : Txn} {s t : State} (h : s.Inv) (hserve : serve tx s = .next t) : t.Inv := by
  rcases serve_cases hserve with ⟨_, -, rfl⟩ | ⟨_, -, hexec⟩
  · exact inv_respond h _
  · exact inv_of_executes h (exec_executes hexec)

/-- Settles O54, by the agent that moved. -/
theorem stepKeepsInv : Obligations.StepKeepsInv := by
  unfold Obligations.StepKeepsInv
  intro s t h hstep
  obtain ⟨-, ⟨-, rfl⟩ | ⟨-, _, _, _, -, hw, rfl⟩ | ⟨-, _, _, htake, hserve⟩ | ⟨-, rfl⟩⟩ := step_cases hstep
  · exact inv_resetEvent s.tick
  · exact inv_finish (inv_tick h) hw
  · exact inv_serve (inv_takeTxn (inv_tick h) htake) hserve
  · exact inv_tick h

/-! ### What an instruction leaves unchanged (R58) -/

section frames
variable {i : Instr} {s t : State}

theorem Executes.surroundings (h : Executes s i t) :
    t.lb = s.lb ∧ t.mark = s.mark ∧ t.queue = s.queue ∧ t.sched = s.sched := by
  cases h <;> exact ⟨rfl, rfl, rfl, rfl⟩

theorem Executes.responses (h : Executes s i t) : ∃ r, t.responses = s.responses ++ r := by
  cases h with
  | hold => exact ⟨[], by simp⟩
  | _ => exact ⟨_, rfl⟩

theorem Executes.irqEn (h : Executes s i t) (hi : ∀ d, i ≠ .wrIrqEn d) : t.irqEn = s.irqEn := by
  cases h with
  | setIrqEn d => exact absurd rfl (hi d)
  | _ => rfl

theorem Executes.plane (h : Executes s i t) (hi : ∀ cell d, i ≠ .planeWr cell d) : t.plane = s.plane := by
  cases h with
  | store d => exact absurd rfl (hi _ d)
  | _ => rfl

theorem Executes.held (h : Executes s i t) (hi : ¬ isPlaneAccess i) : t.held = s.held := by
  cases h with
  | hold hp => exact absurd hp hi
  | _ => rfl

theorem Executes.seq_busy (h : Executes s i t) (hi : ¬ isCommand i) :
    t.seq = s.seq ∧ t.status.busy = s.status.busy := by
  cases h with
  | reject hc => exact absurd hc hi
  | accept hc => exact absurd hc hi
  | _ => exact ⟨rfl, rfl⟩

theorem Executes.status (h : Executes s i t) (hi : ¬ isCommand i) (hw : ∀ d, i ≠ .wrStatus d) :
    t.status = s.status := by
  cases h with
  | acknowledge d => exact absurd rfl (hw d)
  | reject hc => exact absurd hc hi
  | accept hc => exact absurd hc hi
  | _ => rfl

end frames

theorem not_isPlaneAccess {i : Instr} (hr : ∀ cell, i ≠ .planeRd cell) (hw : ∀ cell d, i ≠ .planeWr cell d) :
    ¬ isPlaneAccess i := by
  cases i <;> simp_all [isPlaneAccess]

theorem not_isCommand {i : Instr} (hd : ∀ l, i ≠ .decompose l) (hr : ∀ l, i ≠ .reconstruct l)
    (hw : ∀ w, i ≠ .wrCmd w) : ¬ isCommand i := by
  cases i <;> simp_all [isCommand]

/-- Settles O24, one frame lemma for each part of the state. -/
theorem instructionFrames : Obligations.InstructionFrames := by
  unfold Obligations.InstructionFrames
  intro i s t hexec
  have h := exec_executes hexec
  obtain ⟨hlb, hmark, hqueue, hsched⟩ := h.surroundings
  refine ⟨hlb, hmark, hqueue, hsched, h.responses, h.irqEn, fun hi => ?_, fun hr hw => ?_, fun hd hr hw => ?_⟩
  · have hplane := h.plane hi
    exact ⟨hplane, fun a => by rw [hplane]⟩
  · exact h.held (not_isPlaneAccess hr hw)
  · have hi := not_isCommand hd hr hw
    obtain ⟨hseq, hbusy⟩ := h.seq_busy hi
    exact ⟨hseq, hbusy, h.status hi⟩

/-! ### The step of the host port -/

/-- The port takes a transaction before it runs it: the block's state but `held` is as it was. -/
theorem takeTxn_frame {s s' : State} {tx : Txn} (h : takeTxn s = some (tx, s')) :
    s'.plane = s.plane ∧ s'.status = s.status ∧ s'.seq = s.seq := by
  rcases takeTxn_cases h with ⟨-, rfl⟩ | ⟨-, _, -, rfl⟩ <;> exact ⟨rfl, rfl, rfl⟩

/-- The port runs no bare command word: a command reaches it as a CMD write (R80, R140). -/
theorem wrCmd_of_decodeTxn {tx : Txn} {i : Instr} (h : decodeTxn tx = .ok i) (hi : isCommand i) : ∃ w, i = .wrCmd w := by
  cases i with
  | wrCmd w => exact ⟨w, rfl⟩
  | decompose _ | reconstruct _ => simpa using decodeTxn_ok h
  | _ => exact hi.elim

/-! ### The places where a STATUS flag changes (R34) -/

/-- What one step does to STATUS, and where. -/
theorem step_status_cases {s t : State} (h : step s = .next t) :
    t.status = s.status ∨
    (nextAgent s = some .reset ∧ t.status = ⟨false, false, false, 0⟩) ∨
    (nextAgent s = some .sequencer ∧ t.status = s.status.completed) ∨
    (∃ d, hostRuns s (.wrStatus d) ∧ t.status = s.status.writeClear d) ∨
    (∃ w code, hostRuns s (.wrCmd w) ∧ t.status = s.status.rejected code ∧ t.seq = s.seq) ∨
    (∃ w op l, hostRuns s (.wrCmd w) ∧ t.status = s.status.accepted ∧ t.seq = .run op l) := by
  obtain ⟨-, ⟨ha, rfl⟩ | ⟨ha, _, _, _, -, -, rfl⟩ | ⟨ha, tx, u, htake, hserve⟩ | ⟨-, rfl⟩⟩ := step_cases h
  · exact .inr (.inl ⟨ha, rfl⟩)
  · exact .inr (.inr (.inl ⟨ha, rfl⟩))
  · obtain ⟨-, hst, hseq⟩ := takeTxn_frame htake
    simp only [State.tick_status, State.tick_seq] at hst hseq
    rw [← hst, ← hseq]
    rcases serve_cases hserve with ⟨_, -, rfl⟩ | ⟨i, hdec, hexec⟩
    · exact .inl rfl
    · have hrun : hostRuns s i := ⟨ha, tx, u, htake, hdec⟩
      cases exec_executes hexec with
      | acknowledge d => exact .inr (.inr (.inr (.inl ⟨d, hrun, rfl⟩)))
      | reject hi =>
        obtain ⟨w, rfl⟩ := wrCmd_of_decodeTxn hdec hi
        exact .inr (.inr (.inr (.inr (.inl ⟨w, _, hrun, rfl, rfl⟩))))
      | accept hi =>
        obtain ⟨w, rfl⟩ := wrCmd_of_decodeTxn hdec hi
        exact .inr (.inr (.inr (.inr (.inr ⟨w, _, _, hrun, rfl, rfl⟩))))
      | _ => exact .inl rfl
  · exact .inl rfl

/-- Settles O55, by what the step did to STATUS. -/
theorem flagsChangeOnlyWhereListed : Obligations.FlagsChangeOnlyWhereListed := by
  unfold Obligations.FlagsChangeOnlyWhereListed
  intro s t h
  rcases step_status_cases h with hst | ⟨ha, hst⟩ | ⟨ha, hst⟩ | ⟨d, hrun, hst⟩ | ⟨w, code, hrun, hst, hseq⟩ |
    ⟨w, op, l, hrun, hst, hseq⟩ <;> rw [hst]
  -- no flag changed
  · simp +contextual
  -- reset
  · simp [ha]
  -- completion
  · simp +contextual [ha, Status.completed]
  -- a STATUS write
  · simp only [Status.writeClear]
    refine ⟨by simp +contextual, by simp +contextual, by simp +contextual, fun hd hd' => .inr (.inl ⟨d, hrun, ?_⟩),
      by simp +contextual, fun he he' => .inl ⟨d, hrun, ?_⟩, fun hc => .inr (.inl ⟨d, hrun, ?_⟩)⟩
    · simpa [hd] using hd'
    · simpa [he] using he'
    · by_contra hne
      exact hc (if_neg hne)
  -- a rejected command
  · simp only [Status.rejected]
    exact ⟨by simp +contextual, by simp +contextual, by simp +contextual, by simp +contextual,
      fun _ _ => ⟨w, hrun, hseq⟩, by simp, fun _ => .inl ⟨w, hrun, trivial⟩⟩
  -- an accepted command
  · simp only [Status.accepted]
    exact ⟨fun _ _ => ⟨w, op, l, hrun, hseq⟩, by simp, by simp, fun _ _ => .inl ⟨w, hrun, trivial⟩, by simp +contextual,
      by simp +contextual, by simp⟩

/-- Settles O56, by the agent that moved. -/
theorem planeChangesOnlyWhereListed : Obligations.PlaneChangesOnlyWhereListed := by
  unfold Obligations.PlaneChangesOnlyWhereListed
  intro s t h hne
  obtain ⟨-, ⟨ha, -⟩ | ⟨ha, -⟩ | ⟨ha, tx, u, htake, hserve⟩ | ⟨-, rfl⟩⟩ := step_cases h
  · exact .inr (.inr ha)
  · exact .inr (.inl ha)
  · obtain ⟨hplane, -, -⟩ := takeTxn_frame htake
    refine .inl ?_
    rcases serve_cases hserve with ⟨_, -, rfl⟩ | ⟨i, hdec, hexec⟩
    · exact absurd hplane hne
    · by_contra hno
      refine hne (((exec_executes hexec).plane ?_).trans hplane)
      rintro cell d rfl
      exact hno ⟨cell, d, ha, tx, u, htake, hdec⟩
  · exact absurd rfl hne

/-! ### Where a step faults (R22, R111, R147, R175) -/

/-- R110 faults exactly for an idle block, 1 to 3 levels and an unwritten cell. -/
theorem startTransform_fault_iff (op : Op) (levels : BitVec 4) (s : State) :
    startTransform op levels s = .fault .uninitRead ↔
      s.status.busy = false ∧ 1 ≤ levels.toNat ∧ levels.toNat ≤ 3 ∧ ∃ e, e < 262144 ∧ s.plane.read e = none := by
  rw [← Memory.allWritten_eq_false_iff]
  unfold startTransform
  split
  · rename_i hb
    exact iff_of_false nofun fun h => by simp [hb] at h
  · rename_i hb
    split
    · rename_i hl
      exact iff_of_false nofun fun ⟨_, _, hle, _⟩ => absurd hl (Nat.not_lt.mpr hle)
    · rename_i hl
      have hle : levels.toNat ≤ 3 := Nat.not_lt.mp hl
      split
      · rename_i hw
        obtain ⟨h1, hw⟩ := Bool.and_eq_true_iff.mp hw
        exact iff_of_true rfl ⟨eq_false_of_ne_true hb, of_decide_eq_true h1, hle, by simpa using hw⟩
      · rename_i hw
        exact iff_of_false nofun fun ⟨_, h1, _, hw'⟩ => hw (by simp [levelsOf, h1, hw'])

/-- Settles O20, by what R110 faults on. -/
theorem uninitReadExactlyOnUnwrittenCells : Obligations.UninitReadExactlyOnUnwrittenCells := by
  unfold Obligations.UninitReadExactlyOnUnwrittenCells
  refine ⟨Memory.allWritten_iff, ?_⟩
  rintro levels s i hi hb hl
  have hcond (op : Op) : startTransform op levels s = .fault .uninitRead ↔
      1 ≤ levels.toNat ∧ ∃ e, e < 262144 ∧ s.plane.read e = none := by
    rw [startTransform_fault_iff]
    exact ⟨fun ⟨_, h1, _, he⟩ => ⟨h1, he⟩, fun ⟨h1, he⟩ => ⟨hb, h1, hl, he⟩⟩
  rcases hi with rfl | rfl
  · exact hcond .decompose
  · exact hcond .reconstruct

/-- PLANE_RD faults exactly for an idle block and an unwritten cell of the window (R147). -/
theorem execPlaneRd_fault_iff (cell : BitVec 19) (s : State) :
    execPlaneRd cell s = .fault .uninitRead ↔
      planeFieldOk cell = true ∧ s.status.busy = false ∧ s.plane.read (cellIndex cell) = none := by
  unfold execPlaneRd
  split
  · split
    · simp [*]
    · split <;> simp [*]
  · simp [*]

/-- PLANE_WR never faults (R148). -/
theorem execPlaneWr_not_fault (cell : BitVec 19) (d : Val) (s : State) (f : Fault) :
    execPlaneWr cell d s ≠ .fault f := by
  unfold execPlaneWr
  split
  · split <;> simp
  · simp

/-- The mask of R83 keeps OP and the reserved fields of a word. -/
theorem cmdFields_masked (w : Word) :
    cmdRsv0 (w &&& 0xFFFFFF0F) = cmdRsv0 w ∧ cmdRsv1 (w &&& 0xFFFFFF0F) = cmdRsv1 w ∧
      cmdOp (w &&& 0xFFFFFF0F) = cmdOp w := by
  have m0 : (0xFFFFFF0F : Word).extractLsb' 2 2 = BitVec.allOnes 2 := by decide
  have m1 : (0xFFFFFF0F : Word).extractLsb' 8 24 = BitVec.allOnes 24 := by decide
  have m2 : (0xFFFFFF0F : Word).extractLsb' 0 2 = BitVec.allOnes 2 := by decide
  simp only [cmdRsv0, cmdRsv1, cmdOp, BitVec.extractLsb'_and, m0, m1, m2, BitVec.and_allOnes, and_self]

theorem setWidth_eq_cmdWord (op : BitVec 2) : op.setWidth 32 = cmdWord op 0 := by
  revert op
  decide

/-- A word masked as in R83 is a bare OP exactly when its reserved fields are 0 and it has that OP. -/
theorem masked_eq_iff (w : Word) (op : BitVec 2) :
    w &&& 0xFFFFFF0F = op.setWidth 32 ↔ cmdRsv0 w = 0#2 ∧ cmdRsv1 w = 0#24 ∧ cmdOp w = op := by
  constructor
  · intro h
    obtain ⟨h0, h1, h2⟩ := cmdFields_masked w
    rw [← h0, ← h1, ← h2, h, setWidth_eq_cmdWord]
    simp
  · rintro ⟨h0, h1, rfl⟩
    have h := Laws.TableRow.cmdWord_and_mask (cmdOp w) (cmdLevels w)
    rwa [cmdWord_of_fields h0 h1] at h

theorem cmdKind_decompose_iff_masked (w : Word) : cmdKind w = .decompose ↔ w &&& 0xFFFFFF0F = 1 :=
  cmdKind_decompose.trans (masked_eq_iff w 1#2).symm

theorem cmdKind_reconstruct_iff_masked (w : Word) : cmdKind w = .reconstruct ↔ w &&& 0xFFFFFF0F = 2 :=
  cmdKind_reconstruct.trans (masked_eq_iff w 2#2).symm

/-- LEVELS is the word's bits 7:4 (R82). -/
theorem cmdLevels_toNat (w : Word) : (cmdLevels w).toNat = ((w >>> 4) &&& 15).toNat := by
  simp only [cmdLevels, BitVec.extractLsb'_toNat, BitVec.toNat_and, BitVec.toNat_ushiftRight]
  exact (Nat.and_two_pow_sub_one_eq_mod _ 4).symm

theorem rejectIllegal_not_fault (s : State) (f : Fault) : rejectIllegal s ≠ .fault f := by
  unfold rejectIllegal
  split <;> simp

/-- A CMD write faults exactly for a DECOMPOSE or RECONSTRUCT word on which R110 faults. -/
theorem execWrCmd_fault_iff (w : Word) (s : State) :
    execWrCmd w s = .fault .uninitRead ↔
      s.status.busy = false ∧ (w &&& 0xFFFFFF0F = 1 ∨ w &&& 0xFFFFFF0F = 2) ∧
        1 ≤ ((w >>> 4) &&& 15).toNat ∧ ((w >>> 4) &&& 15).toNat ≤ 3 ∧ ∃ e, e < 262144 ∧ s.plane.read e = none := by
  rw [← cmdKind_decompose_iff_masked, ← cmdKind_reconstruct_iff_masked, ← cmdLevels_toNat]
  unfold execWrCmd
  cases hk : cmdKind w with
  | nop => simp [execNop]
  | decompose => simp [execDecompose, startTransform_fault_iff]
  | reconstruct => simp [execReconstruct, startTransform_fault_iff]
  | illegal => simp [rejectIllegal_not_fault]

/-- The only transactions on which the port faults (R175). -/
theorem exec_fault_cases {tx : Txn} {i : Instr} {s : State} (hdec : decodeTxn tx = .ok i)
    (h : exec i s = .fault .uninitRead) : (∃ cell, i = .planeRd cell) ∨ ∃ w, i = .wrCmd w := by
  cases i with
  | planeRd cell => exact .inl ⟨cell, rfl⟩
  | wrCmd w => exact .inr ⟨w, rfl⟩
  | decompose _ | reconstruct _ => simpa using decodeTxn_ok hdec
  | planeWr cell d => exact absurd h (execPlaneWr_not_fault cell d s _)
  | _ => cases h

theorem planeFieldOk_of_decodeTxn {tx : Txn} {cell : BitVec 19} (h : decodeTxn tx = .ok (.planeRd cell)) :
    planeFieldOk cell = true := by
  simpa using decodeTxn_ok h

/-- In a state of the invariant the completion step has a result (R111). -/
theorem completionStep_not_fault {s : State} (h : s.Inv) (f : Fault) : completionStep s ≠ .fault f := by
  unfold completionStep
  split
  · simp
  · rename_i op l hseq
    obtain ⟨w, hw⟩ := transform_isSome (op := op) (w := (s.plane, s.lb)) (h.run_written op l hseq)
    simp [hw]

/-- The host's step is what exec answers on the state with the transaction taken (R140). -/
theorem step_of_hostRuns {s : State} {i : Instr} (hm : s.mark = none) (h : hostRuns s i) :
    ∃ u, u.status = s.status ∧ u.plane = s.plane ∧ step s = exec i u := by
  obtain ⟨ha, tx, u, htake, hdec⟩ := h
  obtain ⟨hplane, hst, -⟩ := takeTxn_frame htake
  refine ⟨u, hst, hplane, ?_⟩
  rw [step_of_nextAgent hm ha]
  simp only [agentStep, hostStep, htake, serve, hdec]

/-- In a state of the invariant a step that faults runs an instruction of the host's: neither reset nor the completion
step faults, nor a transaction that matches no row. -/
theorem hostRuns_of_step_fault {s : State} {f : Fault} (hm : s.mark = none) (hinv : s.Inv) (h : step s = .fault f) :
    ∃ i, hostRuns s i := by
  cases ha : nextAgent s with
  | none =>
    rw [step_of_nextAgent_none hm ha] at h
    cases h
  | some a =>
    rw [step_of_nextAgent hm ha] at h
    cases a with
    | reset => cases h
    | sequencer => exact absurd h (completionStep_not_fault (inv_tick hinv) f)
    | host =>
      simp only [agentStep, hostStep] at h
      split at h
      · rename_i tx u htake
        unfold serve at h
        split at h
        · exact ⟨_, ha, tx, u, htake, ‹_›⟩
        · cases h
      · cases h

/-- Settles O37: the step is the host's, and each of the two instructions that fault says when. -/
theorem stepFaultsOnlyWhereListed : Obligations.StepFaultsOnlyWhereListed := by
  unfold Obligations.StepFaultsOnlyWhereListed
  intro s hm hinv
  constructor
  · intro h
    obtain ⟨i, hrun⟩ := hostRuns_of_step_fault hm hinv h
    obtain ⟨u, hst, hplane, hstep⟩ := step_of_hostRuns hm hrun
    have ⟨_, _, _, _, hdec⟩ := hrun
    rw [hstep] at h
    rcases exec_fault_cases hdec h with ⟨cell, rfl⟩ | ⟨w, rfl⟩
    · obtain ⟨-, hb, hr⟩ := (execPlaneRd_fault_iff cell u).mp h
      exact .inl ⟨cell, hrun, hst ▸ hb, hplane ▸ hr⟩
    · have hw := (execWrCmd_fault_iff w u).mp h
      rw [hst, hplane] at hw
      exact .inr ⟨w, hrun, hw⟩
  · rintro (⟨cell, hrun, hb, hr⟩ | ⟨w, hrun, hw⟩)
    · obtain ⟨u, hst, hplane, hstep⟩ := step_of_hostRuns hm hrun
      obtain ⟨-, _, _, -, hdec⟩ := hrun
      rw [← hst] at hb
      rw [← hplane] at hr
      exact hstep.trans ((execPlaneRd_fault_iff cell u).mpr ⟨planeFieldOk_of_decodeTxn hdec, hb, hr⟩)
    · obtain ⟨u, hst, hplane, hstep⟩ := step_of_hostRuns hm hrun
      rw [← hst, ← hplane] at hw
      exact hstep.trans ((execWrCmd_fault_iff w u).mpr hw)

/-! ### The line buffer is never observed (R36) -/

/-- The state with another line buffer. -/
def State.withLb (lb : List Val) (s : State) : State := { s with lb := lb }

theorem State.withLb_plane (lb : List Val) (s : State) : (s.withLb lb).plane = s.plane := rfl

/-- Two outcomes agree but for the line buffer: one fault, or next states that differ in it alone. -/
def Alike (o o' : Out) : Prop :=
  (∃ t lb, o = .next t ∧ o' = .next (t.withLb lb)) ∨ ∃ f, o = .fault f ∧ o' = .fault f

theorem alike_next (t : State) (lb : List Val) : Alike (.next t) (.next (t.withLb lb)) := .inl ⟨t, lb, rfl, rfl⟩

theorem alike_fault (f : Fault) : Alike (.fault f) (.fault f) := .inr ⟨f, rfl, rfl⟩

theorem alike_ite {c : Prop} [Decidable c] {o o' p p' : Out} (h : Alike o o') (h' : Alike p p') :
    Alike (if c then o else p) (if c then o' else p') := by
  split
  · exact h
  · exact h'

theorem startTransform_withLb (op : Op) (levels : BitVec 4) (s : State) (lb : List Val) :
    Alike (startTransform op levels s) (startTransform op levels (s.withLb lb)) :=
  alike_ite (alike_next _ lb) (alike_ite (alike_next _ lb) (alike_ite (alike_fault _) (alike_next _ lb)))

theorem rejectIllegal_withLb (s : State) (lb : List Val) :
    Alike (rejectIllegal s) (rejectIllegal (s.withLb lb)) :=
  alike_ite (alike_next _ lb) (alike_next _ lb)

theorem execWrCmd_withLb (w : Word) (s : State) (lb : List Val) :
    Alike (execWrCmd w s) (execWrCmd w (s.withLb lb)) := by
  unfold execWrCmd
  cases cmdKind w with
  | nop => exact alike_next _ lb
  | decompose => exact startTransform_withLb _ _ s lb
  | reconstruct => exact startTransform_withLb _ _ s lb
  | illegal => exact rejectIllegal_withLb s lb

theorem execPlaneRd_withLb (cell : BitVec 19) (s : State) (lb : List Val) :
    Alike (execPlaneRd cell s) (execPlaneRd cell (s.withLb lb)) := by
  refine alike_ite (alike_ite (alike_next _ lb) ?_) (alike_next _ lb)
  rw [State.withLb_plane]
  cases s.plane.read (cellIndex cell) with
  | none => exact alike_fault _
  | some v => exact alike_next _ lb

theorem execPlaneWr_withLb (cell : BitVec 19) (d : Val) (s : State) (lb : List Val) :
    Alike (execPlaneWr cell d s) (execPlaneWr cell d (s.withLb lb)) :=
  alike_ite (alike_ite (alike_next _ lb) (alike_next _ lb)) (alike_next _ lb)

theorem exec_withLb (i : Instr) (s : State) (lb : List Val) : Alike (exec i s) (exec i (s.withLb lb)) := by
  cases i with
  | decompose _ | reconstruct _ => exact startTransform_withLb _ _ s lb
  | wrCmd w => exact execWrCmd_withLb w s lb
  | planeRd cell => exact execPlaneRd_withLb cell s lb
  | planeWr cell d => exact execPlaneWr_withLb cell d s lb
  | nop _ | rdId | wrId _ | rdInfo | wrInfo _ | rdCmd | rdStatus | wrStatus _ | rdIrqEn | wrIrqEn _ =>
    exact alike_next _ lb

theorem serve_withLb (tx : Txn) (s : State) (lb : List Val) : Alike (serve tx s) (serve tx (s.withLb lb)) := by
  unfold serve
  split
  · exact exec_withLb _ s lb
  · exact alike_next _ lb

theorem takeTxn_withLb (s : State) (lb : List Val) :
    takeTxn (s.withLb lb) = (takeTxn s).map fun p => (p.1, p.2.withLb lb) := by
  simp only [takeTxn, State.withLb]
  split
  · rfl
  · split <;> rfl

theorem hostStep_withLb (s : State) (lb : List Val) : Alike (hostStep s) (hostStep (s.withLb lb)) := by
  unfold hostStep
  rw [takeTxn_withLb]
  cases takeTxn s with
  | none => exact alike_next _ lb
  | some p => exact serve_withLb p.1 p.2 lb

/-- The completion step leaves a line buffer of its own, but the plane it leaves is the same (R106, R113). -/
theorem completionStep_withLb (s : State) (lb : List Val) :
    Alike (completionStep s) (completionStep (s.withLb lb)) := by
  simp only [completionStep, State.withLb]
  split
  · exact alike_next _ lb
  · rename_i op l _
    have h := transform_fst_congr op l s.plane s.lb lb
    cases hw : transform op l (s.plane, s.lb) with
    | none =>
      rw [hw, Option.map_none, eq_comm, Option.map_eq_none_iff] at h
      rw [h]
      exact alike_fault _
    | some w =>
      rw [hw, Option.map_some, eq_comm, Option.map_eq_some_iff] at h
      obtain ⟨w', hw', hplane⟩ := h
      rw [hw']
      refine .inl ⟨_, w'.2, rfl, ?_⟩
      simp only [State.finish, State.withLb, hplane]

theorem agentStep_withLb (a : Agent) (s : State) (lb : List Val) :
    Alike (agentStep a s) (agentStep a (s.withLb lb)) := by
  cases a with
  | host => exact hostStep_withLb s lb
  | sequencer => exact completionStep_withLb s lb
  | reset => exact alike_next s.resetEvent []

theorem nextAgent_withLb (s : State) (lb : List Val) : nextAgent (s.withLb lb) = nextAgent s := rfl

theorem step_withLb (s : State) (lb : List Val) : Alike (step s) (step (s.withLb lb)) := by
  cases hm : s.mark with
  | some f =>
    rw [step_of_mark hm, step_of_mark (s := s.withLb lb) hm]
    exact alike_fault f
  | none =>
    have hm' : (s.withLb lb).mark = none := hm
    cases ha : nextAgent s with
    | some a =>
      rw [step_of_nextAgent hm ha, step_of_nextAgent hm' ((nextAgent_withLb s lb).trans ha)]
      exact agentStep_withLb a s.tick lb
    | none =>
      rw [step_of_nextAgent_none hm ha, step_of_nextAgent_none hm' ((nextAgent_withLb s lb).trans ha)]
      exact alike_next s.tick lb

/-- Settles O57, layer by layer: what an instruction, the port, an agent and a step answer. -/
theorem lineBufferIsInvisible : Obligations.LineBufferIsInvisible := by
  unfold Obligations.LineBufferIsInvisible
  intro s s' h
  have hs' : s' = s.withLb s'.lb := h
  rw [hs']
  rcases step_withLb s s'.lb with ⟨t, lb, ht, ht'⟩ | ⟨f, hf, hf'⟩
  · rw [ht, ht']
    rfl
  · rw [hf, hf']

/-! ### The registers (R27, R28, R30 to R33) -/

/-- A register of at most 8 bits reads as one byte and three zeros (R53). -/
theorem lanes_setWidth {n : Nat} (x : BitVec n) (hn : n ≤ 8) :
    lanes 4 (x.setWidth 32) = [x.setWidth 8, 0, 0, 0] := by
  have hx : x.toNat < 256 := x.isLt.trans_le (Nat.pow_le_pow_right (by decide) hn)
  simp only [lanes, List.range_succ, List.range_zero, List.nil_append, List.map_cons, List.map_nil, List.cons_append,
    List.cons.injEq, and_true]
  refine ⟨?_, ?_, ?_, ?_⟩ <;> apply BitVec.eq_of_toNat_eq <;>
    simp only [BitVec.extractLsb'_toNat, BitVec.toNat_setWidth, BitVec.ofNat_eq_ofNat, BitVec.toNat_ofNat,
      Nat.shiftRight_eq_div_pow, Nat.reduceMul, Nat.reducePow] <;> omega

theorem okayWord_of_lanes {w : Word} {bs : List Byte} (h : lanes 4 w = bs) (s : State) :
    s.okayWord w = s.respond (.okay bs) := by rw [State.okayWord_eq, h]

/-- Settles O9: ID is a constant (R27). -/
theorem idIsHardwired : Obligations.IdIsHardwired := by
  unfold Obligations.IdIsHardwired
  intro s d
  have hid : lanes 4 Config.idValue = [0x44, 0x32, 0x44, 0x57] := by decide
  exact ⟨congrArg Host.Outcome.next (okayWord_of_lanes hid s), rfl⟩

/-- Settles O10: INFO is a constant (R28). -/
theorem infoIsHardwired : Obligations.InfoIsHardwired := by
  unfold Obligations.InfoIsHardwired
  intro s d
  have hinfo : lanes 4 Config.infoValue = [0x99, 0x03, 0x00, 0x00] := by decide
  exact ⟨congrArg Host.Outcome.next (okayWord_of_lanes hinfo s), rfl⟩

/-- STATUS as the byte it reads (R30). -/
def Status.byte (st : Status) : Byte :=
  (((st.errcode ++ 0#1) ++ BitVec.ofBool st.err) ++ BitVec.ofBool st.done) ++ BitVec.ofBool st.busy

theorem lanes_status_word (st : Status) : lanes 4 st.word = [st.byte, 0, 0, 0] := by
  have h := lanes_setWidth st.byte (by decide)
  rwa [BitVec.setWidth_eq] at h

/-- Settles O12, by the byte that STATUS reads. -/
theorem statusReadsItsFields : Obligations.StatusReadsItsFields := by
  unfold Obligations.StatusReadsItsFields
  intro s
  refine ⟨s.status.byte, congrArg Host.Outcome.next (okayWord_of_lanes (lanes_status_word s.status) s), ?_⟩
  obtain ⟨busy, done, err, errcode⟩ := s.status
  simp only [Status.byte]
  revert busy done err errcode
  decide

/-- A STATUS write as masks on the flags (R31). -/
theorem Status.writeClear_eq (d : Word) (st : Status) :
    st.writeClear d =
      { busy := st.busy
        done := st.done && !(d.getLsbD 1)
        err := st.err && !(d.getLsbD 2)
        errcode := if d.getLsbD 2 = true then 0 else st.errcode } := by
  unfold Status.writeClear
  cases d.getLsbD 1 <;> cases d.getLsbD 2 <;> simp

/-- Settles O13, by the flags a STATUS write leaves. -/
theorem statusWriteClears : Obligations.StatusWriteClears := by
  unfold Obligations.StatusWriteClears
  intro s d
  rw [← Status.writeClear_eq]
  rfl

/-- Settles O14, by the two bits that IRQ_EN reads (R33). -/
theorem irqEnWriteAndRead : Obligations.IrqEnWriteAndRead := by
  unfold Obligations.IrqEnWriteAndRead
  intro s d
  have hread := lanes_setWidth (BitVec.ofBool s.irqEn.errIe ++ BitVec.ofBool s.irqEn.doneIe) (by decide)
  refine ⟨rfl, _, congrArg Host.Outcome.next (okayWord_of_lanes hread s), ?_⟩
  obtain ⟨doneIe, errIe⟩ := s.irqEn
  revert doneIe errIe
  decide

/-! ### Reset (R39, R200, R201) -/

/-- Settles O50: each value is the one R39 states. -/
theorem resetValues : Obligations.ResetValues := by
  unfold Obligations.ResetValues
  exact ⟨fun _ => rfl, rfl, rfl, rfl, rfl, rfl, by decide, by decide, rfl, rfl, by decide⟩

/-- Settles O51: reset is always enabled, and its event says the rest. -/
theorem resetStep : Obligations.ResetStep := by
  unfold Obligations.ResetStep
  intro s sch hm hs
  have hnext : nextAgent s = some .reset := nextAgent_of_sched hs rfl
  refine ⟨s.tick.resetEvent, step_of_nextAgent hm hnext, fun _ => rfl, rfl, rfl, rfl, rfl, rfl, hm, rfl, ?_, ?_⟩
  · simp [hs]
  · rw [State.resetEvent_responses, State.tick_held, State.tick_responses]
    cases s.held <;> simp

/-- Settles O53: reset is a state after its own event. -/
theorem resetMeetsInv : Obligations.ResetMeetsInv := inv_resetEvent State.reset

end Sys2Proof.Machine
end

section
/-! SUPPORT. The memory statements (20_memory.md): byte lanes, the cell an offset names, the subband geometry and the
codec's groups, which cells the passes of DECOMPOSE touch, and the plane accesses that the host port performs or holds. -/

namespace Sys2Proof.Machine

/-! ### Byte lanes (R53) -/

/-- Settles O7, by the laws of the lanes. -/
theorem lanesAreLittleEndian : Obligations.LanesAreLittleEndian := by
  unfold Obligations.LanesAreLittleEndian
  refine ⟨fun m n v j hj => ?_, fun m n v => lanes_length n v, wordOfLanes_lanes, valOfLanes_lanes⟩
  rw [lanes_getElem? n v j hj, BitVec.setWidth_ushiftRight_eq_extractLsb]

/-! ### The cell an offset names (R52) -/

theorem cellIndex_planeField {a : Word} (h : a.toNat < 0x300000) :
    cellIndex (planeField a) = (a.toNat - 0x100000) / 8 := by
  have hfield := planeField_toNat h
  unfold cellIndex
  omega

theorem rowOf_eq_div (e : Nat) : rowOf e = e / 512 := Nat.shiftRight_eq_div_pow e 9

theorem colOf_eq_mod (e : Nat) : colOf e = e % 512 := Nat.and_two_pow_sub_one_eq_mod e 9

/-- A read of eight bytes at an aligned offset of the plane window is the read of the cell there (R55, R87). -/
theorem decodeTxn_planeRead {a : Word} (h1 : 0x100000 ≤ a.toNat) (h2 : a.toNat < 0x300000) (h8 : a.toNat % 8 = 0) :
    decodeTxn (.read a 8) = .ok (.planeRd (planeField a)) := by
  have h := decodeTxn_planeReadTxn (planeFieldOk_planeField h1 h2)
  rwa [planeReadTxn, planeAddr_planeField h2 h8] at h

/-- Settles O8: field W is the offset divided by 8, and row and column are the quotient and the remainder by 512. -/
theorem planeOffsetNamesCell : Obligations.PlaneOffsetNamesCell := by
  unfold Obligations.PlaneOffsetNamesCell
  refine ⟨fun a _ h2 => cellIndex_planeField h2, fun a h1 h2 h8 => ?_, fun r c hr hc => ?_⟩
  · have hlt : a.toNat < 0x300000 := by omega
    refine ⟨planeField a, decodeTxn_planeRead h1 hlt h8, cellIndex_planeField hlt, ?_⟩
    rw [cellIndex_planeField hlt, rowOf_eq_div, colOf_eq_mod]
    omega
  · have ha : (BitVec.ofNat 32 (0x100000 + 8 * (r * 512 + c))).toNat = 0x100000 + 8 * (r * 512 + c) := by
      rw [BitVec.toNat_ofNat]
      omega
    have hcell := cellIndex_planeField (a := BitVec.ofNat 32 (0x100000 + 8 * (r * 512 + c))) (by omega)
    rw [rowOf_eq_div, colOf_eq_mod]
    refine ⟨rfl, by omega, by omega, ?_, _, decodeTxn_planeRead (by omega) (by omega) (by omega), ?_⟩
    · simp only [cellOffset, Config.planeOffset]
      omega
    · rw [hcell, ha]
      omega

/-! ### The subbands tile the plane (R66, R67) -/

/-- A coordinate below an extent lies in one of its halves. -/
theorem toNat_halves (n x : Nat) :
    (decide (x < n / 2)).toNat + (decide (n / 2 ≤ x) && decide (x < n)).toNat = (decide (x < n)).toNat := by
  by_cases h1 : x < n / 2
  · have h2 : x < n := by omega
    simp [h1, h2, Nat.not_le.mpr h1]
  · simp [h1, Nat.not_lt.mp h1]

/-- Two tests that split `x`, crossed with two that split `y`, split `x && y`. -/
theorem toNat_quarters {t b l r x y : Bool} (hx : t.toNat + b.toNat = x.toNat) (hy : l.toNat + r.toNat = y.toNat) :
    (t && l).toNat + (t && r).toNat + (b && l).toNat + (b && r).toNat = (x && y).toNat := by
  revert t b l r x y
  decide

/-- The four subbands of a level tile the active extent of its pass (R66). -/
theorem inBand_quarters (g : Geom) (l r c : Nat) :
    (inBand g .ll l r c).toNat + (inBand g .hl l r c).toNat + (inBand g .lh l r c).toNat + (inBand g .hh l r c).toNat =
      (decide (r < g.h >>> (l - 1)) && decide (c < g.w >>> (l - 1))).toNat :=
  toNat_quarters (toNat_halves ..) (toNat_halves ..)

/-- LL of a level is the active extent of the next pass (R67). -/
theorem inBand_ll (g : Geom) (l r c : Nat) :
    inBand g .ll (l + 1) r c = (decide (r < g.h >>> (l + 1)) && decide (c < g.w >>> (l + 1))) := rfl

/-- The number of subbands left by `levels` levels in which a cell lies. -/
def bandCount (g : Geom) (levels r c : Nat) : Nat := (bandsAfter levels).countP fun b => inBand g b.1 b.2 r c

/-- One level more puts the four subbands of that level in the place of the LL before. -/
theorem bandCount_succ (g : Geom) (l r c : Nat) :
    bandCount g (l + 1) r c + (inBand g .ll l r c).toNat =
      bandCount g l r c + (decide (r < g.h >>> l) && decide (c < g.w >>> l)).toNat := by
  have hquarters := inBand_quarters g (l + 1) r c
  rw [Nat.add_sub_cancel] at hquarters
  rw [← hquarters]
  simp only [bandCount, bandsAfter, List.range_succ, List.flatMap_append, List.flatMap_singleton, List.countP_cons,
    List.countP_append, List.countP_nil, Bool.toNat, Bool.cond_eq_ite]
  omega

/-- After at least one level each cell of the plane lies in one subband, and no other cell does (R67). -/
theorem bandCount_eq (g : Geom) (l r c : Nat) :
    bandCount g (l + 1) r c = (decide (r < g.h) && decide (c < g.w)).toNat := by
  induction l with
  | zero =>
    have h := bandCount_succ g 0 r c
    have h0 : bandCount g 0 r c = (inBand g .ll 0 r c).toNat := by
      simp [bandCount, bandsAfter, List.countP_cons, Bool.toNat, Bool.cond_eq_ite]
    simp only [Nat.shiftRight_zero] at h
    omega
  | succ l ih =>
    have h := bandCount_succ g (l + 1) r c
    rw [inBand_ll] at h
    omega

/-- Settles O47, by the count of the subbands at a cell, level after level. -/
theorem subbandsTileThePlane : Obligations.SubbandsTileThePlane := by
  unfold Obligations.SubbandsTileThePlane
  intro levels r c h1 _ hr hc
  obtain ⟨l, rfl⟩ := Nat.exists_eq_add_of_le' h1
  have h := bandCount_eq Config.geom l r c
  rwa [show (decide (r < Config.geom.h) && decide (c < Config.geom.w)) = true by simp [Config.geom, hr, hc], bandCount,
    List.countP_eq_length_filter] at h

/-! ### The canonical layout and the codec's groups (R68 to R70) -/

/-- Where the extent of a pass can be halved, each of its subbands is the rectangle of half the size at its first cell. -/
theorem inBand_iff {g : Geom} {l : Nat} (hw : 2 ∣ g.w >>> (l - 1)) (hh : 2 ∣ g.h >>> (l - 1)) (b : Band) (r c : Nat) :
    inBand g b l r c = true ↔
      (bandRow g b l ≤ r ∧ r < bandRow g b l + g.h >>> (l - 1) / 2) ∧
      (bandCol g b l ≤ c ∧ c < bandCol g b l + g.w >>> (l - 1) / 2) := by
  cases b <;> simp only [inBand, bandRow, bandCol, Bool.and_eq_true, decide_eq_true_eq] <;> omega

/-- On the 512 × 512 plane a subband of level 1 to 3 is a square of side `512 >> l`. -/
theorem inBand_geom_iff {l : Nat} (h1 : 1 ≤ l) (h3 : l ≤ 3) (b : Band) (r c : Nat) :
    inBand Config.geom b l r c = true ↔
      (bandRow Config.geom b l ≤ r ∧ r < bandRow Config.geom b l + 512 >>> l) ∧
      (bandCol Config.geom b l ≤ c ∧ c < bandCol Config.geom b l + 512 >>> l) := by
  interval_cases l <;> exact inBand_iff (by decide) (by decide) b r c

theorem level_of_mem_bandsAfter {levels : Nat} {b : Band × Nat} (hlevels : 1 ≤ levels) (h : b ∈ bandsAfter levels) :
    1 ≤ b.2 ∧ b.2 ≤ levels := by
  rcases List.mem_cons.mp h with rfl | h
  · exact ⟨hlevels, le_rfl⟩
  · obtain ⟨k, hk, hb⟩ := List.mem_flatMap.mp h
    have hlevel : b.2 = k + 1 := by
      simp only [List.mem_cons, List.not_mem_nil, or_false] at hb
      rcases hb with rfl | rfl | rfl <;> rfl
    rw [List.mem_range] at hk
    omega

/-- Settles O48: the offsets and counts are computed, and each subband is the square at its first cell. -/
theorem canonicalSubbandLayout : Obligations.CanonicalSubbandLayout := by
  unfold Obligations.CanonicalSubbandLayout
  refine ⟨rfl, rfl, rfl, rfl, rfl, rfl, rfl, rfl, rfl, rfl, rfl, rfl, rfl, rfl, rfl, fun r c => ?_, fun b hb => ?_⟩
  · refine ⟨?_, ?_, ?_, ?_, ?_, ?_, ?_, ?_, ?_, ?_⟩
    all_goals
      rw [inBand_geom_iff (by decide) (by decide)]
      simp only [bandRow, bandCol, Config.geom, Nat.reduceSub, Nat.reduceShiftRight, Nat.reduceDiv]
      omega
  · obtain ⟨h1, h3⟩ := level_of_mem_bandsAfter (by decide) hb
    have hside : ∀ l ≤ 3, 0 < 512 >>> l := by decide
    have := hside b.2 h3
    refine ⟨(inBand_geom_iff h1 h3 b.1 _ _).mpr (by omega), rfl, fun r c hin => ?_⟩
    obtain ⟨⟨hr, -⟩, hc, -⟩ := (inBand_geom_iff h1 h3 b.1 r c).mp hin
    exact ⟨hr, hc⟩

/-- HL3 is LH3 with rows and columns exchanged, and so is its scan (R70). -/
theorem inBand_hl3_iff_lh3 (r c : Nat) :
    inBand Config.geom .hl 3 r c = true ↔ inBand Config.geom .lh 3 c r = true := by
  rw [inBand_geom_iff (by decide) (by decide), inBand_geom_iff (by decide) (by decide)]
  exact and_comm

theorem hl3Quad_eq_swap (q j : Nat) : hl3Quad q j = (lh3Quad q j).swap := rfl

theorem lh3Quad_covers (r c : Nat) :
    inBand Config.geom .lh 3 r c = true ↔ ∃ q j, q < 1024 ∧ j < 4 ∧ lh3Quad q j = (r, c) := by
  rw [inBand_geom_iff (by decide) (by decide)]
  simp only [bandRow, bandCol, Config.geom, lh3Quad, Prod.mk.injEq, Nat.reduceSub, Nat.reduceShiftRight,
    Nat.reduceDiv]
  constructor
  · intro h
    exact ⟨16 * (r - 64) + c / 4, c % 4, by omega, by omega, by omega, by omega⟩
  · rintro ⟨q, j, hq, hj, hr, hc⟩
    omega

theorem lh3Quad_inj {q j q' j' : Nat} (hj : j < 4) (hj' : j' < 4) (h : lh3Quad q j = lh3Quad q' j') :
    q = q' ∧ j = j' := by
  simp only [lh3Quad, Prod.mk.injEq] at h
  omega

/-- Settles O49, by LH3's scan and the exchange of rows and columns. -/
theorem codecQuadsCoverSubbands : Obligations.CodecQuadsCoverSubbands := by
  unfold Obligations.CodecQuadsCoverSubbands
  refine ⟨lh3Quad_covers, fun r c => ?_, fun q j q' j' hj hj' => ⟨lh3Quad_inj hj hj', fun h => ?_⟩⟩
  · rw [inBand_hl3_iff_lh3, lh3Quad_covers]
    simp only [hl3Quad_eq_swap, Prod.swap_eq_iff_eq_swap, Prod.swap_prod_mk]
  · exact lh3Quad_inj hj hj' (Prod.swap_injective h)

/-! ### The later passes of DECOMPOSE (R67, R117) -/

/-- The lines that passes `l` to `l + m - 1` of DECOMPOSE lift, in order. -/
def decLinesFrom (g : Geom) (l m : Nat) : List (List Nat) :=
  (List.range m).flatMap fun k => rowLines g (l + k) ++ colLines g (l + k)

theorem decLines_add (g : Geom) (l m : Nat) : decLines g (l + m) = decLines g l ++ decLinesFrom g l m := by
  simp only [decLines, decLinesFrom, List.range_add, List.flatMap_append, List.flatMap_map]

theorem decPlane_add (f : Lifter) (g : Geom) (l m : Nat) (w : Work) :
    decPlane f g (l + m) w = (decPlane f g l w).bind (liftLines f (decLinesFrom g l m)) := by
  simp only [decPlane_eq_liftLines, decLines_add, liftLines_append]

/-- The cells of pass `l` and the later ones lie in the active extent of pass `l`. -/
theorem mem_decLinesFrom {g : Geom} {l m e : Nat} {line : List Nat} (hl : line ∈ decLinesFrom g l m) (he : e ∈ line) :
    ∃ r c, r < activeH g l ∧ c < activeW g l ∧ e = index g r c := by
  obtain ⟨k, -, hl⟩ := List.mem_flatMap.mp hl
  obtain ⟨r, c, hr, hc, rfl⟩ := (List.mem_append.mp hl).elim (fun h => mem_rowLines_cells.mp ⟨line, h, he⟩)
    (fun h => mem_colLines_cells.mp ⟨line, h, he⟩)
  rw [activeH, Nat.shiftRight_add] at hr
  rw [activeW, Nat.shiftRight_add] at hc
  exact ⟨r, c, hr.trans_le (Nat.shiftRight_le ..), hc.trans_le (Nat.shiftRight_le ..), rfl⟩

/-- Settles O46: every line of a later pass lies in the active extent, and no line holds the cell. -/
theorem laterPassesRewriteOnlyLL : Obligations.LaterPassesRewriteOnlyLL := by
  unfold Obligations.LaterPassesRewriteOnlyLL
  intro f l n w w' w'' hln _ hl hn r c _ hc hout
  obtain ⟨m, rfl⟩ := Nat.exists_eq_add_of_le hln
  rw [decPlane_add, hl] at hn
  refine liftLines_read_of_not_mem hn fun line hline he => ?_
  obtain ⟨r', c', hr', hc', h⟩ := mem_decLinesFrom hline he
  obtain ⟨rfl, rfl⟩ := index_inj (g := Config.geom) hc (hc'.trans_le (activeW_le ..)) h
  exact hout ⟨hr', hc'⟩

/-! ### The port's plane accesses (R56, R57, R146, R172) -/

/-- Settles O23: a field W outside the window fails the check of both plane rows (log 13). -/
theorem planeFieldOutsideWindowIsBusError : Obligations.PlaneFieldOutsideWindowIsBusError := by
  unfold Obligations.PlaneFieldOutsideWindowIsBusError
  intro s cell d h
  have hout : ¬ planeFieldOk cell = true := by
    rw [planeFieldOk_iff]
    omega
  exact ⟨if_neg hout, if_neg hout⟩

/-- The host's step is what exec answers on the state with the transaction taken (R140). -/
theorem step_of_takeTxn {s u : State} {tx : Txn} {i : Instr} (hm : s.mark = none) (ha : nextAgent s = some .host)
    (htake : takeTxn s.tick = some (tx, u)) (hdec : decodeTxn tx = .ok i) : step s = exec i u := by
  rw [step_of_nextAgent hm ha]
  simp only [agentStep, hostStep, htake, serve, hdec]

theorem takeTxn_of_held {s : State} {tx : Txn} (h : s.held = some tx) :
    takeTxn s = some (tx, { s with held := none }) := by simp [takeTxn, h]

theorem takeTxn_of_queue {s : State} {tx : Txn} {rest : List Txn} (hh : s.held = none) (hq : s.queue = tx :: rest) :
    takeTxn s = some (tx, { s with queue := rest }) := by simp [takeTxn, hh, hq]

/-- Settles O25, by the transaction the port takes: the head of the queue, or the held one. -/
theorem stepRunsDecodedTransaction : Obligations.StepRunsDecodedTransaction := by
  unfold Obligations.StepRunsDecodedTransaction
  refine ⟨fun s t rest sch i hm hh hq hs hdec => ?_, fun s t sch i hm hh hb hs hdec => ?_⟩
  · have ha := nextAgent_of_sched hs (enabled_host.mpr (.inr ⟨hh, t, rest, hq⟩))
    rw [step_of_takeTxn hm ha (takeTxn_of_queue hh hq) hdec, State.tick, hs, List.tail_cons]
  · have ha := nextAgent_of_sched hs (enabled_host.mpr (.inl ⟨t, hh, hb⟩))
    rw [step_of_takeTxn hm ha (takeTxn_of_held hh) hdec, State.tick, hs, List.tail_cons]

/-- While BUSY the host port does not move if it holds a transaction (R146). -/
theorem not_busy_of_host_moves {s : State} {tx : Txn} (hh : s.held = some tx) (ha : nextAgent s = some .host) :
    s.status.busy = false := by
  rcases enabled_host.mp (nextAgent_enabled ha) with ⟨_, -, hb⟩ | ⟨hn, -⟩
  · exact hb
  · simp [hh] at hn

/-- Settles O28, by the agent that moved. -/
theorem heldTransactionKeepsItsPlace : Obligations.HeldTransactionKeepsItsPlace := by
  unfold Obligations.HeldTransactionKeepsItsPlace
  intro s t tx hh hstep
  obtain ⟨-, ⟨ha, rfl⟩ | ⟨-, _, _, _, -, -, rfl⟩ | ⟨ha, _, u, htake, hserve⟩ | ⟨-, rfl⟩⟩ := step_cases hstep
  · exact ⟨rfl, fun _ hreset => absurd ha hreset⟩
  · exact ⟨rfl, fun _ _ => ⟨hh, rfl⟩⟩
  · rcases takeTxn_cases htake with ⟨-, rfl⟩ | ⟨hfree, -⟩
    · obtain ⟨-, -, hqueue⟩ := (serve_answersOrHolds hserve).counts rfl
      exact ⟨hqueue, fun hb => by simp [not_busy_of_host_moves hh ha] at hb⟩
    · simp [hh] at hfree
  · exact ⟨rfl, fun _ _ => ⟨hh, rfl⟩⟩

theorem planeFieldOk_of_decodeTxn_planeWr {tx : Txn} {cell : BitVec 19} {d : Val}
    (h : decodeTxn tx = .ok (.planeWr cell d)) : planeFieldOk cell = true := by
  simpa using decodeTxn_ok h

/-- A plane access that reaches the port while BUSY is held and nothing else (R146). -/
theorem exec_planeAccess_busy {tx : Txn} {i : Instr} {s t : State} (hdec : decodeTxn tx = .ok i)
    (hi : isPlaneAccess i) (hb : s.status.busy = true) (h : exec i s = .next t) : ∃ tx', t = s.hold tx' := by
  cases i with
  | planeRd cell =>
    have hok := planeFieldOk_of_decodeTxn hdec
    rcases execPlaneRd_cases h with ⟨hno, -⟩ | ⟨-, -, rfl⟩ | ⟨_, -, hidle, -⟩
    · simp [hok] at hno
    · exact ⟨_, rfl⟩
    · simp [hb] at hidle
  | planeWr cell d =>
    have hok := planeFieldOk_of_decodeTxn_planeWr hdec
    rcases execPlaneWr_cases h with ⟨hno, -⟩ | ⟨-, -, rfl⟩ | ⟨-, hidle, -⟩
    · simp [hok] at hno
    · exact ⟨_, rfl⟩
    · simp [hb] at hidle
  | _ => exact hi.elim

/-- A plane access that the port runs in a step taken while BUSY is held, the block being otherwise as it was (R57). -/
theorem step_planeAccess_busy {s t : State} {i : Instr} (hi : isPlaneAccess i) (hb : s.status.busy = true)
    (hstep : step s = .next t) (hrun : hostRuns s i) :
    t.responses = s.responses ∧ t.plane = s.plane ∧ t.held.isSome = true := by
  obtain ⟨ha, tx, u, htake, hdec⟩ := hrun
  obtain ⟨hm, -⟩ := step_cases hstep
  obtain ⟨hplane, hst, -⟩ := takeTxn_frame htake
  obtain ⟨-, hresp, -⟩ := takeTxn_counts htake
  rw [step_of_takeTxn hm ha htake hdec] at hstep
  obtain ⟨tx', rfl⟩ := exec_planeAccess_busy hdec hi (hst ▸ hb) hstep
  exact ⟨hresp, hplane, rfl⟩

/-- Settles O30: the access, read or write, is held. -/
theorem noPlaneAccessWhileBusy : Obligations.NoPlaneAccessWhileBusy := by
  unfold Obligations.NoPlaneAccessWhileBusy
  rintro s t cell hb hstep (hrun | ⟨d, hrun⟩)
  · exact step_planeAccess_busy (i := .planeRd cell) trivial hb hstep hrun
  · exact step_planeAccess_busy (i := .planeWr cell d) trivial hb hstep hrun

end Sys2Proof.Machine
end

section
/-! SUPPORT. The encoding statements (30_encoding.md): decoder and encoder are inverse, a command word decodes by its
value under the mask of R83, a transaction by its row of R87, and what carries an instruction to the block runs it. -/

namespace Sys2Proof.Machine

/-! ### Command words (R81, R83) -/

/-- A word with its reserved fields 0 is the encoding of its OP and its LEVELS. -/
theorem cmdWord_cmdLevels {w : Word} {op : BitVec 2}
    (h : cmdRsv0 w = 0#2 ∧ cmdRsv1 w = 0#24 ∧ cmdOp w = op) : cmdWord op (cmdLevels w) = w := by
  obtain ⟨h0, h1, rfl⟩ := h
  exact cmdWord_of_fields h0 h1

theorem decodeCmd_nop {w : Word} (h : cmdKind w = .nop) : decodeCmd w = .ok (.nop (cmdLevels w)) := by
  simp [decodeCmd, h]

theorem decodeCmd_decompose {w : Word} (h : cmdKind w = .decompose) :
    decodeCmd w = .ok (.decompose (cmdLevels w)) := by simp [decodeCmd, h]

theorem decodeCmd_reconstruct {w : Word} (h : cmdKind w = .reconstruct) :
    decodeCmd w = .ok (.reconstruct (cmdLevels w)) := by simp [decodeCmd, h]

theorem decodeCmd_illegal {w : Word} (h : cmdKind w = .illegal) : decodeCmd w = .error .badOpcode := by
  simp [decodeCmd, h]

/-- What a command word can decode to (R83). -/
theorem decodeCmd_ok {w : Word} {i : Instr} (h : decodeCmd w = .ok i) :
    (cmdKind w = .nop ∧ i = .nop (cmdLevels w)) ∨ (cmdKind w = .decompose ∧ i = .decompose (cmdLevels w)) ∨
    (cmdKind w = .reconstruct ∧ i = .reconstruct (cmdLevels w)) := by
  cases hk : cmdKind w with
  | nop => simpa [decodeCmd_nop hk, eq_comm] using h
  | decompose => simpa [decodeCmd_decompose hk, eq_comm] using h
  | reconstruct => simpa [decodeCmd_reconstruct hk, eq_comm] using h
  | illegal => simp [decodeCmd_illegal hk] at h

@[simp] theorem decodeCmd_cmdWord_nop (l : BitVec 4) : decodeCmd (cmdWord 0#2 l) = .ok (.nop l) := by
  simpa using decodeCmd_nop (w := cmdWord 0#2 l) (cmdKind_nop.mpr (by simp))

@[simp] theorem decodeCmd_cmdWord_decompose (l : BitVec 4) : decodeCmd (cmdWord 1#2 l) = .ok (.decompose l) := by
  simpa using decodeCmd_decompose (w := cmdWord 1#2 l) (cmdKind_decompose.mpr (by simp))

@[simp] theorem decodeCmd_cmdWord_reconstruct (l : BitVec 4) :
    decodeCmd (cmdWord 2#2 l) = .ok (.reconstruct l) := by
  simpa using decodeCmd_reconstruct (w := cmdWord 2#2 l) (cmdKind_reconstruct.mpr (by simp))

theorem encode_of_decodeCmd {w : Word} {i : Instr} (h : decodeCmd w = .ok i) : i.wf = true ∧ encode i = .cmd32 w := by
  rcases decodeCmd_ok h with ⟨hk, rfl⟩ | ⟨hk, rfl⟩ | ⟨hk, rfl⟩
  · exact ⟨rfl, congrArg Encoded.cmd32 (cmdWord_cmdLevels (cmdKind_nop.mp hk))⟩
  · exact ⟨rfl, congrArg Encoded.cmd32 (cmdWord_cmdLevels (cmdKind_decompose.mp hk))⟩
  · exact ⟨rfl, congrArg Encoded.cmd32 (cmdWord_cmdLevels (cmdKind_reconstruct.mp hk))⟩

/-- A mask that is all ones on a field keeps the field. -/
theorem extractLsb'_and_of_allOnes {i n : Nat} (w : Word) {m : Word} (hm : m.extractLsb' i n = BitVec.allOnes n) :
    (w &&& m).extractLsb' i n = w.extractLsb' i n := by
  rw [BitVec.extractLsb'_and, hm, BitVec.and_allOnes]

/-- The mask of R83 keeps RSV0, RSV1 and OP, so it keeps the kind of the word. -/
theorem cmdKind_and_mask (w : Word) : cmdKind (w &&& 0xFFFFFF0F) = cmdKind w := by
  have h0 : cmdRsv0 (w &&& 0xFFFFFF0F) = cmdRsv0 w := extractLsb'_and_of_allOnes w rfl
  have h1 : cmdRsv1 (w &&& 0xFFFFFF0F) = cmdRsv1 w := extractLsb'_and_of_allOnes w rfl
  have hop : cmdOp (w &&& 0xFFFFFF0F) = cmdOp w := extractLsb'_and_of_allOnes w rfl
  rw [cmdKind, h0, h1, hop, cmdKind]

/-- Under the mask of R83 a word with its reserved fields 0 is its OP. -/
theorem and_mask_of_fields {w : Word} {op : BitVec 2}
    (h : cmdRsv0 w = 0#2 ∧ cmdRsv1 w = 0#24 ∧ cmdOp w = op) : w &&& 0xFFFFFF0F = op.setWidth 32 := by
  have hmask := Laws.TableRow.cmdWord_and_mask op (cmdLevels w)
  rwa [cmdWord_cmdLevels h] at hmask

theorem cmdLevels_eq_setWidth (w : Word) : cmdLevels w = (w >>> 4).setWidth 4 :=
  BitVec.setWidth_ushiftRight_eq_extractLsb.symm

/-- Settles O4: the mask keeps the kind of a word, and a legal word is its OP under it. -/
theorem commandDecodesByMask : Obligations.CommandDecodesByMask := by
  unfold Obligations.CommandDecodesByMask
  intro w
  rw [← cmdLevels_eq_setWidth]
  refine ⟨fun h => ?_, fun h => ?_, fun h => ?_, fun h0 h1 h2 => ?_⟩
  · exact decodeCmd_nop (by rw [← cmdKind_and_mask, h]; rfl)
  · exact decodeCmd_decompose (by rw [← cmdKind_and_mask, h]; rfl)
  · exact decodeCmd_reconstruct (by rw [← cmdKind_and_mask, h]; rfl)
  · cases hk : cmdKind w with
    | nop => exact absurd (and_mask_of_fields (cmdKind_nop.mp hk)) h0
    | decompose => exact absurd (and_mask_of_fields (cmdKind_decompose.mp hk)) h1
    | reconstruct => exact absurd (and_mask_of_fields (cmdKind_reconstruct.mp hk)) h2
    | illegal => exact decodeCmd_illegal hk

/-- `(L << 4) | OP` is the word with those two fields (R89). -/
theorem ofNat_shiftLeft_or_eq_cmdWord (op : BitVec 2) {l : Nat} (hl : l ≤ 15) :
    (BitVec.ofNat 32 l <<< 4) ||| op.setWidth 32 = cmdWord op (BitVec.ofNat 4 l) := by
  have h : ∀ (op : BitVec 2) (l : Fin 16),
      (BitVec.ofNat 32 l <<< 4) ||| op.setWidth 32 = cmdWord op (BitVec.ofNat 4 l) := by decide
  exact h op ⟨l, Nat.lt_succ_of_le hl⟩

/-- The assembler's sum is the word with those two fields (R89). -/
theorem ofNat_add_eq_cmdWord (op : BitVec 2) {l : Nat} (hl : l ≤ 15) :
    BitVec.ofNat 32 (16 * l + op.toNat) = cmdWord op (BitVec.ofNat 4 l) := by
  have h : ∀ (op : BitVec 2) (l : Fin 16),
      BitVec.ofNat 32 (16 * l + op.toNat) = cmdWord op (BitVec.ofNat 4 l) := by decide
  exact h op ⟨l, Nat.lt_succ_of_le hl⟩

/-- Settles O6: the assembler's word and the word of R89 are both the encoding of OP and L. -/
theorem assemblerWords : Obligations.AssemblerWords := by
  unfold Obligations.AssemblerWords
  refine ⟨decodeCmd_cmdWord_nop 0, fun l hl => ⟨?_, ?_⟩, fun l hl => ?_⟩
  · refine ⟨cmdWord 1#2 (BitVec.ofNat 4 l), ?_, (ofNat_shiftLeft_or_eq_cmdWord 1#2 hl).symm,
      decodeCmd_cmdWord_decompose _⟩
    rw [asmDecompose, if_pos hl, ← ofNat_add_eq_cmdWord 1#2 hl]
    rfl
  · refine ⟨cmdWord 2#2 (BitVec.ofNat 4 l), ?_, (ofNat_shiftLeft_or_eq_cmdWord 2#2 hl).symm,
      decodeCmd_cmdWord_reconstruct _⟩
    rw [asmReconstruct, if_pos hl, ← ofNat_add_eq_cmdWord 2#2 hl]
    rfl
  · exact ⟨if_neg (Nat.not_le.mpr hl), if_neg (Nat.not_le.mpr hl)⟩

/-! ### Transactions (R55, R87) -/

/-- The register offsets of R87. -/
def IsRegOffset (a : Word) : Prop := a = 0x000 ∨ a = 0x004 ∨ a = 0x008 ∨ a = 0x00C ∨ a = 0x010

/-- The plane offsets of R87. -/
def IsPlaneOffset (a : Word) : Prop := 0x00100000 ≤ a.toNat ∧ a.toNat ≤ 0x002FFFF8 ∧ a.toNat % 8 = 0

theorem isRegOffset_of_aligned {a : Word} (hlt : a.toNat < 0x14) (h4 : a.toNat % 4 = 0) : IsRegOffset a := by
  unfold IsRegOffset
  bv_omega

theorem checkAccess_reg {a : Word} (h : IsRegOffset a) : checkAccess a 4 = .ok true := by
  rcases h with rfl | rfl | rfl | rfl | rfl <;> rfl

/-- A plane offset is the address of its field W, which is legal (R51, R87). -/
theorem planeAddr_of_isPlaneOffset {a : Word} (h : IsPlaneOffset a) :
    planeFieldOk (planeField a) = true ∧ planeAddr (planeField a) = a := by
  obtain ⟨h1, h2, h8⟩ := h
  have hlt : a.toNat < 0x300000 := by omega
  exact ⟨planeFieldOk_planeField h1 hlt, planeAddr_planeField hlt h8⟩

theorem checkAccess_plane {a : Word} (h : IsPlaneOffset a) : checkAccess a 8 = .ok false := by
  obtain ⟨hok, haddr⟩ := planeAddr_of_isPlaneOffset h
  have hcheck := checkAccess_planeAddr hok
  rwa [haddr] at hcheck

/-- The access check refuses what is no row of R87. -/
theorem checkAccess_error {a : Word} {n : Nat} (hreg : ¬ (n = 4 ∧ IsRegOffset a))
    (hplane : ¬ (n = 8 ∧ IsPlaneOffset a)) : ∃ e, checkAccess a n = .error e := by
  cases hc : checkAccess a n with
  | error e => exact ⟨e, rfl⟩
  | ok b =>
    rcases checkAccess_ok hc with ⟨-, hn, hlt, h4⟩ | ⟨-, hn, h1, h2, h8⟩
    · exact absurd ⟨hn, isRegOffset_of_aligned hlt h4⟩ hreg
    · exact absurd ⟨hn, h1, by omega, h8⟩ hplane

theorem decodeTxn_read_error {a : Word} {n : Nat} {e : DecodeError} (h : checkAccess a n = .error e) :
    decodeTxn (.read a n) = .error e := by simp [decodeTxn, h]

theorem decodeTxn_write_error {a : Word} {data : List Byte} {e : DecodeError}
    (h : checkAccess a data.length = .error e) : decodeTxn (.write a data) = .error e := by simp [decodeTxn, h]

theorem decodeTxn_regWrite {a : Word} {data : List Byte} (h : IsRegOffset a) (hlen : data.length = 4) :
    decodeTxn (.write a data) = decodeRegWrite a (wordOfLanes data) := by
  simp [decodeTxn, hlen, checkAccess_reg h]

/-- A 4-byte write of the lanes of a word at a register offset delivers that word (R53). -/
theorem decodeTxn_regWrite_lanes {a : Word} (h : IsRegOffset a) (d : Word) :
    decodeTxn (.write a (lanes 4 d)) = decodeRegWrite a d := by
  rw [decodeTxn_regWrite h (lanes_length 4 d), wordOfLanes_lanes]

/-- A write of eight bytes at a plane offset is the write of the cell there (R55, R87). -/
theorem decodeTxn_planeWrite {a : Word} {data : List Byte} (h : IsPlaneOffset a) (hlen : data.length = 8) :
    decodeTxn (.write a data) = .ok (.planeWr (planeField a) (valOfLanes data)) := by
  simp [decodeTxn, hlen, checkAccess_plane h]

/-- What the bus decoder reads, by the access that the check lets through (R55, R87). -/
theorem decodeTxn_read_ok {a : Word} {n : Nat} {i : Instr} (h : decodeTxn (.read a n) = .ok i) :
    (n = 4 ∧ decodeRegRead a = .ok i) ∨ (n = 8 ∧ IsPlaneOffset a ∧ i = .planeRd (planeField a)) := by
  cases hc : checkAccess a n with
  | error e => simp [decodeTxn_read_error hc] at h
  | ok b =>
    simp only [decodeTxn, hc] at h
    rcases checkAccess_ok hc with ⟨rfl, hn, -⟩ | ⟨rfl, hn, h1, h2, h8⟩
    · exact .inl ⟨hn, h⟩
    · exact .inr ⟨hn, ⟨h1, by omega, h8⟩, by simpa using h.symm⟩

theorem decodeTxn_write_ok {a : Word} {data : List Byte} {i : Instr} (h : decodeTxn (.write a data) = .ok i) :
    (data.length = 4 ∧ decodeRegWrite a (wordOfLanes data) = .ok i) ∨
    (data.length = 8 ∧ IsPlaneOffset a ∧ i = .planeWr (planeField a) (valOfLanes data)) := by
  cases hc : checkAccess a data.length with
  | error e => simp [decodeTxn_write_error hc] at h
  | ok b =>
    simp only [decodeTxn, hc] at h
    rcases checkAccess_ok hc with ⟨rfl, hn, -⟩ | ⟨rfl, hn, h1, h2, h8⟩
    · exact .inl ⟨hn, h⟩
    · exact .inr ⟨hn, ⟨h1, by omega, h8⟩, by simpa using h.symm⟩

theorem encode_of_decodeTxn {t : Txn} {i : Instr} (h : decodeTxn t = .ok i) : i.wf = true ∧ encode i = .bus t := by
  cases t with
  | read a n =>
    rcases decodeTxn_read_ok h with ⟨rfl, hr⟩ | ⟨rfl, ha, rfl⟩
    · rcases decodeRegRead_ok hr with ⟨rfl, rfl⟩ | ⟨rfl, rfl⟩ | ⟨rfl, rfl⟩ | ⟨rfl, rfl⟩ | ⟨rfl, rfl⟩
      all_goals exact ⟨rfl, rfl⟩
    · obtain ⟨hok, haddr⟩ := planeAddr_of_isPlaneOffset ha
      exact ⟨hok, by rw [encode, haddr]⟩
  | write a data =>
    rcases decodeTxn_write_ok h with ⟨hlen, hw⟩ | ⟨hlen, ha, rfl⟩
    · have hdata := lanes_wordOfLanes data hlen
      rcases decodeRegWrite_ok hw with ⟨rfl, rfl⟩ | ⟨rfl, rfl⟩ | ⟨rfl, rfl⟩ | ⟨rfl, rfl⟩ | ⟨rfl, rfl⟩
      all_goals exact ⟨rfl, by rw [encode, hdata]⟩
    · obtain ⟨hok, haddr⟩ := planeAddr_of_isPlaneOffset ha
      exact ⟨hok, by rw [encode, haddr, lanes_valOfLanes data hlen]⟩

/-- Settles O2: a command word by its two fields, a register row by its offset and the lanes of its data, a plane row by
field W. -/
theorem decodeOfEncode : Obligations.DecodeOfEncode := by
  unfold Obligations.DecodeOfEncode
  intro i hwf
  cases i with
  | nop l => exact decodeCmd_cmdWord_nop l
  | decompose l => exact decodeCmd_cmdWord_decompose l
  | reconstruct l => exact decodeCmd_cmdWord_reconstruct l
  | rdId | rdInfo | rdCmd | rdStatus | rdIrqEn => rfl
  | wrId d | wrInfo d | wrCmd d | wrStatus d | wrIrqEn d =>
    rw [encode, decode, decodeTxn_regWrite_lanes ?_ d]
    · rfl
    · simp [IsRegOffset]
  | planeRd cell => exact decodeTxn_planeReadTxn hwf
  | planeWr cell d => exact decodeTxn_planeWriteTxn d hwf

/-- Settles O3, format by format. -/
theorem encodeOfDecode : Obligations.EncodeOfDecode := by
  unfold Obligations.EncodeOfDecode
  intro e i h
  cases e with
  | cmd32 w => exact encode_of_decodeCmd h
  | bus t => exact encode_of_decodeTxn h

theorem planeField_eq_setWidth (a : Word) : planeField a = (a >>> 3).setWidth 19 :=
  BitVec.setWidth_ushiftRight_eq_extractLsb.symm

/-- Settles O5: each row is what the access check lets through at its offset, and the check refuses the rest. -/
theorem busDecodesByTable : Obligations.BusDecodesByTable := by
  unfold Obligations.BusDecodesByTable
  refine ⟨fun a n => ?_, fun a data => ?_⟩
  · rw [← planeField_eq_setWidth]
    refine ⟨?_, ?_, ?_, ?_, ?_, ?_, fun hreg hplane => ?_⟩
    iterate 5
      rintro rfl rfl
      rfl
    · rintro h1 h2 h8 rfl
      exact decodeTxn_planeRead h1 (by omega) h8
    · obtain ⟨e, he⟩ := checkAccess_error hreg hplane
      exact ⟨e, decodeTxn_read_error he⟩
  · rw [← planeField_eq_setWidth]
    refine ⟨?_, ?_, ?_, ?_, ?_, fun h1 h2 h8 hlen => ?_, fun hreg hplane => ?_⟩
    iterate 5
      rintro rfl hlen
      exact decodeTxn_regWrite (by simp [IsRegOffset]) hlen
    · exact decodeTxn_planeWrite ⟨h1, h2, h8⟩ hlen
    · obtain ⟨e, he⟩ := checkAccess_error hreg hplane
      exact ⟨e, decodeTxn_write_error he⟩

/-- Settles O1: each sample is the encoding of its instruction. -/
theorem sampleEncodingsDecode : Obligations.SampleEncodingsDecode := by
  unfold Obligations.SampleEncodingsDecode
  exact ⟨decodeOfEncode (.nop 15) rfl, decodeOfEncode (.decompose 3) rfl, decodeOfEncode (.reconstruct 3) rfl,
    decodeOfEncode .rdStatus rfl, decodeOfEncode (.wrCmd 0x80000031) rfl, decodeOfEncode (.planeRd 0x3579B) rfl,
    decodeOfEncode (.planeWr 0x5FFFF 0x4020000000000000) rfl⟩

/-! ### What carries an instruction runs it (R80, R110, R140) -/

/-- Settles O17, by the kind of the word (R110). -/
theorem commandRunsAsItsWrite : Obligations.CommandRunsAsItsWrite := by
  unfold Obligations.CommandRunsAsItsWrite
  intro w i s h
  rcases decodeCmd_ok h with ⟨hk, rfl⟩ | ⟨hk, rfl⟩ | ⟨hk, rfl⟩
  all_goals simp only [exec, execWrCmd, hk]

/-- The transaction that carries an encoded instruction runs it (R29, R80). -/
theorem serve_txn {e : Encoded} {i : Instr} (h : decode e = .ok i) (s : State) : serve e.txn s = exec i s := by
  cases e with
  | cmd32 w =>
    have hdec : decodeTxn (Encoded.cmd32 w).txn = .ok (.wrCmd w) := decodeTxn_regWrite_lanes (by simp [IsRegOffset]) w
    rw [serve, hdec]
    exact commandRunsAsItsWrite w i s h
  | bus t =>
    have hdec : decodeTxn (Encoded.bus t).txn = .ok i := h
    rw [serve, hdec]

theorem decode_of_decodeTableWord {nbits w : Nat} {i : Instr} (h : decodeTableWord nbits w = some i) :
    decode (tableEncoded (BitVec.ofNat 32 w)) = .ok i := by
  unfold decodeTableWord at h
  split at h
  · cases hd : decode (tableEncoded (BitVec.ofNat 32 w)) with
    | ok j => simpa [hd, Except.toOption] using h
    | error e => simp [hd, Except.toOption] at h
  · cases h

/-- The step after a number is placed on the reset state is the port's performance of its transaction (log 12). -/
theorem step_reset_withFetchWord (nbits w : Nat) :
    step (State.reset.withFetchWord nbits w) = serve (tableEncoded (BitVec.ofNat 32 w)).txn State.reset := rfl

/-- Settles O59: the host moves first, and its transaction runs the instruction. -/
theorem placedWordRunsNext : Obligations.PlacedWordRunsNext := by
  unfold Obligations.PlacedWordRunsNext
  intro w i h
  rw [step_reset_withFetchWord]
  exact serve_txn (decode_of_decodeTableWord h) State.reset

/-! ### What the harness receives (R90) -/

section receive
variable (wait : Waiting) (r : Response) (y : System)

@[simp] theorem System.receive_block : (y.receive wait r).block = y.block := by cases wait <;> cases r <;> rfl
@[simp] theorem System.receive_prog : (y.receive wait r).prog = y.prog := by cases wait <;> cases r <;> rfl
@[simp] theorem System.receive_waiting : (y.receive wait r).waiting = none := by cases wait <;> cases r <;> rfl
@[simp] theorem System.receive_line : (y.receive wait r).line = y.line + 1 := by cases wait <;> cases r <;> rfl
@[simp] theorem System.receive_err_tmps : (y.receive wait .err).tmps = y.tmps := by cases wait <;> rfl

end receive

theorem System.receive_okay_tmp_self (n : Tmp) (data : List Byte) (y : System) :
    (y.receive (.read n) (.okay data)).tmp n = valOfLanes data := by
  simp [System.tmp, System.receive]

theorem System.receive_okay_tmp_other {n m : Tmp} (h : m ≠ n) (data : List Byte) (y : System) :
    (y.receive (.read n) (.okay data)).tmp m = y.tmp m := by
  simp [System.tmp, System.receive, Fin.val_ne_of_ne h.symm]

/-- The harness receives the response that the block's step adds (R60). -/
theorem systemStep_receives {y : System} {b : State} {wait : Waiting} {r : Response} (hwait : y.waiting = some wait)
    (hstep : step y.block = .next b) (hresp : b.responses = y.block.responses ++ [r]) :
    systemStep y = .next (System.receive wait r { y with block := b }) := by
  simp [systemStep, blockMoves, hwait, hstep, hresp]

/-- Settles O60, by what the harness does with the response it receives. -/
theorem hostNotationResponses : Obligations.HostNotationResponses := by
  unfold Obligations.HostNotationResponses
  intro y b wait r hwait hstep hresp
  refine ⟨_, systemStep_receives hwait hstep hresp, by simp, by simp, by simp, by simp, ?_, ?_⟩
  · rintro rfl
    exact System.receive_err_tmps ..
  · rintro n data rfl rfl
    exact ⟨System.receive_okay_tmp_self .., fun m hm => System.receive_okay_tmp_other hm ..⟩

end Sys2Proof.Machine
end

section
/-! SUPPORT. The transform statements (40_transform.md): which command words are accepted and what each other word does,
how a running command ends, what a pass leaves in each cell, the lines the transforms lift, and that REC undoes DEC. -/

namespace Sys2Proof.Machine

/-! ### The fields of a command word (R81) -/

theorem cmdOp_toNat (w : Word) : (cmdOp w).toNat = (w &&& 3).toNat := by
  simp only [cmdOp, BitVec.extractLsb'_toNat, BitVec.toNat_and, Nat.shiftRight_zero]
  exact (Nat.and_two_pow_sub_one_eq_mod _ 2).symm

theorem cmdRsv0_toNat (w : Word) : (cmdRsv0 w).toNat = ((w >>> 2) &&& 3).toNat := by
  simp only [cmdRsv0, BitVec.extractLsb'_toNat, BitVec.toNat_and, BitVec.toNat_ushiftRight]
  exact (Nat.and_two_pow_sub_one_eq_mod _ 2).symm

theorem cmdRsv1_toNat (w : Word) : (cmdRsv1 w).toNat = (w >>> 8).toNat := by
  have := w.isLt
  simp only [cmdRsv1, BitVec.extractLsb'_toNat, BitVec.toNat_ushiftRight, Nat.shiftRight_eq_div_pow]
  omega

/-- A field is a value exactly when the word, cut to the field's bits, is. -/
theorem field_eq_iff {n : Nat} {a b : BitVec n} {x y : Word} (h : a.toNat = x.toNat) (h' : b.toNat = y.toNat) :
    a = b ↔ x = y := by
  rw [← BitVec.toNat_inj, ← BitVec.toNat_inj, h, h']

theorem cmdOp_eq_one_iff (w : Word) : cmdOp w = 1#2 ↔ w &&& 3 = 1 := field_eq_iff (cmdOp_toNat w) rfl

theorem cmdOp_eq_three_iff (w : Word) : cmdOp w = 3#2 ↔ w &&& 3 = 3 := field_eq_iff (cmdOp_toNat w) rfl

theorem cmdRsv0_eq_zero_iff (w : Word) : cmdRsv0 w = 0#2 ↔ (w >>> 2) &&& 3 = 0 := field_eq_iff (cmdRsv0_toNat w) rfl

theorem cmdRsv1_eq_zero_iff (w : Word) : cmdRsv1 w = 0#24 ↔ w >>> 8 = 0 := field_eq_iff (cmdRsv1_toNat w) rfl

/-- The OP of a word that is none of the three commands'. -/
theorem op_eq_three {op : BitVec 2} : op ≠ 0#2 → op ≠ 1#2 → op ≠ 2#2 → op = 3#2 := by
  revert op
  decide

/-- A word is illegal when a reserved bit is set or OP is 3 (R85). -/
theorem cmdKind_illegal {w : Word} : cmdKind w = .illegal ↔ cmdRsv1 w ≠ 0#24 ∨ cmdRsv0 w ≠ 0#2 ∨ cmdOp w = 3#2 := by
  unfold cmdKind
  split_ifs with hrsv h0 h1 h2
  · simp [hrsv, h0]
  · simp [hrsv, h1]
  · simp [hrsv, h2]
  · simp [hrsv, op_eq_three h0 h1 h2]
  · have : cmdRsv1 w ≠ 0#24 ∨ cmdRsv0 w ≠ 0#2 := by tauto
    simp only [true_iff]
    tauto

theorem cmdKind_illegal_iff_shifted (w : Word) :
    cmdKind w = .illegal ↔ w >>> 8 ≠ 0 ∨ (w >>> 2) &&& 3 ≠ 0 ∨ w &&& 3 = 3 := by
  rw [cmdKind_illegal, Ne, Ne, cmdRsv1_eq_zero_iff, cmdRsv0_eq_zero_iff, cmdOp_eq_three_iff]

theorem cmdKind_nop_iff_masked (w : Word) : cmdKind w = .nop ↔ w &&& 0xFFFFFF0F = 0 :=
  cmdKind_nop.trans (masked_eq_iff w 0#2).symm

theorem setWidth_shiftLeft_or_eq_cmdWord (op : BitVec 2) (levels : BitVec 4) :
    (levels.setWidth 32 <<< 4) ||| op.setWidth 32 = cmdWord op levels := by
  have h := ofNat_shiftLeft_or_eq_cmdWord op (Nat.le_of_lt_succ levels.isLt)
  rwa [BitVec.ofNat_toNat, BitVec.ofNat_toNat, BitVec.setWidth_eq] at h

/-! ### What R110 answers, case by case -/

section acceptance
variable (op : Op) {levels : BitVec 4} {s : State}

theorem startTransform_of_busy (hb : s.status.busy = true) :
    startTransform op levels s = .next ((s.reject cmdWhileBusy).respond (.okay [])) := if_pos hb

theorem startTransform_of_levels (hb : s.status.busy = false) (hl : 3 < levels.toNat) :
    startTransform op levels s = .next ((s.reject badLevels).respond (.okay [])) := by
  have hl : levelsOf levels > Config.maxLevels := hl
  simp [startTransform, hb, hl]

theorem startTransform_of_unwritten (hb : s.status.busy = false) (hl : levels.toNat ≤ 3)
    (h : 1 ≤ levels.toNat ∧ s.plane.allWritten = false) : startTransform op levels s = .fault .uninitRead :=
  (startTransform_fault_iff op levels s).mpr ⟨hb, h.1, hl, (Memory.allWritten_eq_false_iff _).mp h.2⟩

theorem startTransform_of_accepted (hb : s.status.busy = false) (hl : levels.toNat ≤ 3)
    (h : ¬ (1 ≤ levels.toNat ∧ s.plane.allWritten = false)) :
    startTransform op levels s = .next ((s.accept op levels.toNat).respond (.okay [])) := by
  have hl : ¬ levelsOf levels > Config.maxLevels := Nat.not_lt.mpr hl
  have h : ¬ (decide (1 ≤ levelsOf levels) && !s.plane.allWritten) = true := by
    rwa [Bool.and_eq_true, decide_eq_true_iff, Bool.not_eq_true']
  rw [startTransform, if_neg (by simp [hb]), if_neg hl, if_neg h, State.okay_eq]
  rfl

end acceptance

/-- A word that is neither NOP nor illegal is DECOMPOSE or RECONSTRUCT by its OP, and runs by R110. -/
theorem execWrCmd_of_transform {w : Word} (hn : cmdKind w ≠ .nop) (hi : cmdKind w ≠ .illegal) (s : State) :
    execWrCmd w s = startTransform (if w &&& 3 = 1 then .decompose else .reconstruct) (cmdLevels w) s := by
  unfold execWrCmd
  cases hk : cmdKind w with
  | nop => exact absurd hk hn
  | decompose =>
    obtain ⟨-, -, hop⟩ := cmdKind_decompose.mp hk
    rw [if_pos ((cmdOp_eq_one_iff w).mp hop)]
    rfl
  | reconstruct =>
    obtain ⟨-, -, hop⟩ := cmdKind_reconstruct.mp hk
    rw [if_neg (mt (cmdOp_eq_one_iff w).mpr (by simp [hop]))]
    rfl
  | illegal => exact absurd hk hi

theorem execWrCmd_of_nop {w : Word} (h : cmdKind w = .nop) (s : State) :
    execWrCmd w s = .next (s.respond (.okay [])) := by simp [execWrCmd, h, execNop]

/-- While BUSY every word but a NOP is rejected alike (R110, R173). -/
theorem execWrCmd_of_busy {w : Word} {s : State} (hn : cmdKind w ≠ .nop) (hb : s.status.busy = true) :
    execWrCmd w s = .next ((s.reject cmdWhileBusy).respond (.okay [])) := by
  by_cases hi : cmdKind w = .illegal
  · simp [execWrCmd, hi, rejectIllegal, hb]
  · rw [execWrCmd_of_transform hn hi, startTransform_of_busy _ hb]

theorem execWrCmd_of_illegal {w : Word} {s : State} (hi : cmdKind w = .illegal) (hb : s.status.busy = false) :
    execWrCmd w s = .next ((s.reject badOpcode).respond (.okay [])) := by
  simp [execWrCmd, hi, rejectIllegal, hb]

/-- Settles O16, one lemma for each branch of R110, in its order. -/
theorem cmdWriteFollowsAcceptanceRule : Obligations.CmdWriteFollowsAcceptanceRule := by
  unfold Obligations.CmdWriteFollowsAcceptanceRule
  intro w s
  rw [← cmdLevels_toNat]
  split
  · exact execWrCmd_of_nop ((cmdKind_nop_iff_masked w).mpr ‹_›) s
  · rename_i hn
    have hn := mt (cmdKind_nop_iff_masked w).mp hn
    split
    · exact execWrCmd_of_busy hn ‹_›
    · rename_i hb
      have hb := eq_false_of_ne_true hb
      split
      · exact execWrCmd_of_illegal ((cmdKind_illegal_iff_shifted w).mpr ‹_›) hb
      · rename_i hi
        have h := execWrCmd_of_transform hn (mt (cmdKind_illegal_iff_shifted w).mp hi) s
        split
        · exact h.trans (startTransform_of_levels _ hb ‹_›)
        · rename_i hl
          have hl := Nat.not_lt.mp hl
          split
          · exact h.trans (startTransform_of_unwritten _ hb hl ‹_›)
          · exact h.trans (startTransform_of_accepted _ hb hl ‹_›)

/-- Settles O15, by the kind of the word. -/
theorem nopDoesNothing : Obligations.NopDoesNothing := by
  unfold Obligations.NopDoesNothing
  refine ⟨fun _ _ => rfl, fun levels s => ?_, fun s => ?_⟩
  · have hw : levels.setWidth 32 <<< 4 = cmdWord 0#2 levels := by
      simpa using setWidth_shiftLeft_or_eq_cmdWord 0#2 levels
    exact execWrCmd_of_nop (cmdKind_nop.mpr (by simp [hw])) s
  · cases hb : s.status.busy with
    | true => exact execWrCmd_of_busy (w := 4) (by decide) hb
    | false => exact execWrCmd_of_illegal (w := 4) (by decide) hb

/-- Settles O18: the word of each command is its own constructor's, and R110 accepts it. -/
theorem transformCommandsAccepted : Obligations.TransformCommandsAccepted := by
  unfold Obligations.TransformCommandsAccepted
  intro levels s hb hl hw
  have hok : ¬ (1 ≤ levels.toNat ∧ s.plane.allWritten = false) := fun ⟨h1, hno⟩ => by
    simp [(Memory.allWritten_iff _).mpr (hw h1)] at hno
  have hacc (op : Op) := startTransform_of_accepted op hb hl hok
  constructor
  · rintro i (rfl | rfl)
    · exact hacc .decompose
    · rw [show (1 : Word) = (1#2).setWidth 32 from rfl, setWidth_shiftLeft_or_eq_cmdWord]
      exact (commandRunsAsItsWrite _ _ s (decodeCmd_cmdWord_decompose levels)).trans (hacc .decompose)
  · rintro i (rfl | rfl)
    · exact hacc .reconstruct
    · rw [show (2 : Word) = (2#2).setWidth 32 from rfl, setWidth_shiftLeft_or_eq_cmdWord]
      exact (commandRunsAsItsWrite _ _ s (decodeCmd_cmdWord_reconstruct levels)).trans (hacc .reconstruct)

/-- Settles O19, by the branch of R110 that answers. -/
theorem transformCommandsRejected : Obligations.TransformCommandsRejected := by
  unfold Obligations.TransformCommandsRejected
  rintro levels s i (rfl | rfl)
  · exact ⟨startTransform_of_busy .decompose, startTransform_of_levels .decompose⟩
  · exact ⟨startTransform_of_busy .reconstruct, startTransform_of_levels .reconstruct⟩

/-! ### The passes in order (R107, R108) -/

/-- Settles O41: pass index `l` is the last of the fold over the indexes below `l + 1`. -/
theorem decomposeRunsPassesUpward : Obligations.DecomposeRunsPassesUpward := by
  unfold Obligations.DecomposeRunsPassesUpward
  intro f g l w
  refine ⟨rfl, ?_⟩
  rw [decPlane, List.range_succ, List.foldlM_append]
  simp only [List.foldlM_cons, List.foldlM_nil, bind_pure]
  rfl

/-- Settles O42: pass index `l` is the first of the fold over those indexes in reverse. -/
theorem reconstructRunsPassesDownward : Obligations.ReconstructRunsPassesDownward := by
  unfold Obligations.ReconstructRunsPassesDownward
  intro f g l w
  refine ⟨rfl, ?_⟩
  rw [recPlane, List.range_succ, List.reverse_append]
  rfl

/-! ### Completion (R113) -/

/-- The completion step of a running command whose transform has a result. -/
theorem step_of_completion {s : State} {sch : List Agent} {op : Op} {l : Nat} {w : Work} (hm : s.mark = none)
    (hs : s.sched = .sequencer :: sch) (hseq : s.seq = .run op l) (hw : transform op l (s.plane, s.lb) = some w) :
    step s = .next (s.tick.finish w) := by
  rw [step_of_nextAgent hm (nextAgent_of_sched hs (enabled_sequencer.mpr ⟨op, l, hseq⟩))]
  simp [agentStep, completionStep, hseq, hw]

/-- Settles O32: the step is the sequencer's, and the transform is the operation's. -/
theorem completionStepStoresTransform : Obligations.CompletionStep := by
  unfold Obligations.CompletionStep
  intro s sch op l p lb hm hs hseq h
  have hw : transform op l (s.plane, s.lb) = some (p, lb) := by cases op <;> exact h
  rw [step_of_completion hm hs hseq hw, State.tick, hs]
  rfl

/-- Every line of DEC and of REC on this hardware lies in the plane, so a fully written plane has a result (R111). -/
theorem liftLines_opLines_of_written (f : Lifter) (op : Op) (l : Nat) {w : Work}
    (h : ∀ e, e < 262144 → (w.1.read e).isSome = true) : ∃ w', liftLines f (opLines op l) w = some w' :=
  liftLines_of_written fun _ hl e he => h e (opLines_lt hl e he)

/-- Settles O33, by the lines that each transform lifts. -/
theorem transformHasResult : Obligations.TransformHasResult := by
  unfold Obligations.TransformHasResult
  intro f l m lb
  refine ⟨⟨rfl, rfl⟩, fun h => ⟨?_, ?_⟩⟩
  · rw [decPlane_eq_liftLines]
    exact liftLines_opLines_of_written f .decompose l h
  · rw [recPlane_eq_liftLines]
    exact liftLines_opLines_of_written f .reconstruct l h

/-- A CMD write that an idle block accepts, taken by the host with the sequencer's step next, runs to completion. -/
theorem run_two_of_accepted {s : State} {op : Op} {w : Word} {l : Nat} {rest : List Txn} {sch : List Agent}
    (hm : s.mark = none) (hh : s.held = none) (hs : s.sched = .host :: .sequencer :: sch)
    (hq : s.queue = .write 0x008 (lanes 4 w) :: rest) (hl : 1 ≤ l → s.plane.allWritten = true)
    (hacc : ∀ u : State, u.status = s.status → u.plane = s.plane →
      exec (.wrCmd w) u = .next ((u.accept op l).respond (.okay []))) :
    ∃ p lb, transform op l (s.plane, s.lb) = some (p, lb) ∧
      core.run 2 s = .next { s with
        plane := p
        lb := lb
        seq := .idle
        status := { s.status with busy := false, done := true }
        responses := s.responses ++ [.okay []]
        queue := rest
        sched := sch } := by
  obtain ⟨⟨p, lb⟩, hw⟩ := transform_isSome (op := op) (w := (s.plane, s.lb)) hl
  refine ⟨p, lb, hw, ?_⟩
  have hdec : decodeTxn (.write 0x008 (lanes 4 w)) = .ok (.wrCmd w) :=
    decodeTxn_regWrite_lanes (by simp [IsRegOffset]) w
  have h1 := (stepRunsDecodedTransaction.1 s _ rest _ _ hm hh hq hs hdec).trans (hacc _ rfl rfl)
  have h2 := step_of_completion (s := State.respond (.okay []) (State.accept op l
    { s with queue := rest, sched := .sequencer :: sch })) (w := (p, lb)) hm rfl rfl hw
  rw [run_succ_of_next 1 h1, run_succ_of_next 0 h2]
  rfl

/-- Settles O34: the CMD write is accepted, and the completion step has a result. -/
theorem commandRunsToCompletion : Obligations.CommandRunsToCompletion := by
  unfold Obligations.CommandRunsToCompletion
  intro s levels rest sch hm hh hb hl hw hs
  have hacc (u : State) (hst : u.status = s.status) (hplane : u.plane = s.plane) :=
    transformCommandsAccepted levels u (hst ▸ hb) hl (hplane ▸ hw)
  have hwritten := fun h1 => (Memory.allWritten_iff _).mpr (hw h1)
  exact ⟨fun hq => run_two_of_accepted (op := .decompose) hm hh hs hq hwritten fun u hst hplane =>
      (hacc u hst hplane).1 _ (.inr rfl),
    fun hq => run_two_of_accepted (op := .reconstruct) hm hh hs hq hwritten fun u hst hplane =>
      (hacc u hst hplane).2 _ (.inr rfl)⟩

/-! ### A running command ends (R113, R174) -/

/-- While a command runs the agent that moves is the sequencer or the schedule's head (log 6). -/
theorem nextAgent_of_running {s : State} {a : Agent} (hrun : s.seq ≠ .idle) (h : nextAgent s = some a) :
    a = .sequencer ∨ ∃ sch, s.sched = a :: sch := by
  have hd : defaultAgent s = some .sequencer := if_pos (decide_eq_true hrun)
  unfold nextAgent at h
  split at h
  · rename_i b sch hs
    split at h
    · cases h
      exact .inr ⟨sch, hs⟩
    · exact .inl (Option.some_injective _ (h.symm.trans hd))
  · exact .inl (Option.some_injective _ (h.symm.trans hd))

/-- No instruction makes a running sequencer idle. -/
theorem Executes.seq_running {i : Instr} {s t : State} (h : Executes s i t) (hrun : s.seq ≠ .idle) :
    t.seq ≠ .idle := by
  cases h with
  | accept => nofun
  | _ => exact hrun

/-- The transaction that the port performs leaves a running command running, the mark and the schedule as they are. -/
theorem serve_of_running {tx : Txn} {s t : State} (hrun : s.seq ≠ .idle) (h : serve tx s = .next t) :
    t.seq ≠ .idle ∧ t.mark = s.mark ∧ t.sched = s.sched := by
  rcases serve_cases h with ⟨_, -, rfl⟩ | ⟨i, -, h⟩
  · exact ⟨hrun, rfl, rfl⟩
  · have h := exec_executes h
    obtain ⟨-, hmark, -, hsched⟩ := h.surroundings
    exact ⟨h.seq_running hrun, hmark, hsched⟩

theorem takeTxn_surroundings {s s' : State} {tx : Txn} (h : takeTxn s = some (tx, s')) :
    s'.mark = s.mark ∧ s'.sched = s.sched := by
  rcases takeTxn_cases h with ⟨-, rfl⟩ | ⟨-, _, -, rfl⟩ <;> exact ⟨rfl, rfl⟩

/-- A step of a running command: the reset that the schedule names, its completion, or the host's step that the schedule
names, after which it runs on. -/
theorem step_of_running {s t : State} (hrun : s.seq ≠ .idle) (h : step s = .next t) :
    (Agent.reset ∈ s.sched ∧ t.seq = .idle) ∨ (t.seq = .idle ∧ t.status.done = true) ∨
    (s.sched = .host :: t.sched ∧ t.mark = none ∧ t.seq ≠ .idle) := by
  obtain ⟨hm, ⟨ha, rfl⟩ | ⟨-, _, _, _, -, -, rfl⟩ | ⟨ha, tx, u, htake, hserve⟩ | ⟨ha, rfl⟩⟩ := step_cases h
  · obtain h | ⟨sch, hs⟩ := nextAgent_of_running hrun ha
    · cases h
    · exact .inl ⟨by simp [hs], rfl⟩
  · exact .inr (.inl ⟨rfl, rfl⟩)
  · obtain h | ⟨sch, hs⟩ := nextAgent_of_running hrun ha
    · cases h
    · obtain ⟨-, -, hseq⟩ := takeTxn_frame htake
      obtain ⟨hmark', hsched'⟩ := takeTxn_surroundings htake
      obtain ⟨hrun', hmark, hsched⟩ := serve_of_running (hseq ▸ hrun) hserve
      exact .inr (.inr ⟨by rw [hsched, hsched', State.tick_sched, hs, List.tail_cons],
        hmark.trans (hmark'.trans hm), hrun'⟩)
  · have hseq := (nextAgent_eq_none ha).1
    simp [enabled, hrun] at hseq

/-- In a state of the invariant no step of a running command faults: the block is BUSY (R146). -/
theorem step_of_running_not_fault {s : State} (hm : s.mark = none) (hinv : s.Inv) (hrun : s.seq ≠ .idle) :
    step s ≠ .fault .uninitRead := by
  intro h
  have hb := hinv.busy_iff.mpr hrun
  rcases (stepFaultsOnlyWhereListed s hm hinv).mp h with ⟨_, -, hidle, -⟩ | ⟨_, -, hidle, -⟩ <;> simp [hb] at hidle

/-- After `n` steps of `s` the command that ran is over: completed, reset if the schedule names it, or, outside the
invariant, faulted. -/
def CommandEnds (n : Nat) (s : State) : Prop :=
  (∃ t, core.run n s = .next t ∧ t.seq = .idle ∧ (Agent.reset ∉ s.sched → t.status.done = true)) ∨
    (core.run n s = .fault .uninitRead ∧ ¬ s.Inv)

/-- A host step before the end puts the end one step later. -/
theorem CommandEnds.of_host_step {n : Nat} {s t : State} (hstep : step s = .next t)
    (hs : s.sched = .host :: t.sched) (h : CommandEnds n t) : CommandEnds (n + 1) s := by
  unfold CommandEnds
  rw [run_succ_of_next n hstep, hs]
  rcases h with ⟨u, hu, hidle, hdone⟩ | ⟨hf, hno⟩
  · exact .inl ⟨u, hu, hidle, fun hr => hdone fun h => hr (List.mem_cons_of_mem _ h)⟩
  · exact .inr ⟨hf, fun hinv => hno (stepKeepsInv s t hinv hstep)⟩

/-- Each step that does not end a running command uses up one entry of the schedule. -/
theorem commandEnds_of_running {s : State} (hm : s.mark = none) (hrun : s.seq ≠ .idle) :
    ∃ n ≤ s.sched.length + 1, CommandEnds n s := by
  cases hstep : step s with
  | refused r => exact absurd hstep (step_not_refused s r)
  | fault f =>
    cases f
    exact ⟨1, by omega, .inr ⟨run_succ_of_fault 0 hstep, fun hinv => step_of_running_not_fault hm hinv hrun hstep⟩⟩
  | next t =>
    have hone := run_succ_of_next 0 hstep
    rcases step_of_running hrun hstep with ⟨hr, hidle⟩ | ⟨hidle, hdone⟩ | ⟨hs, hm', hrun'⟩
    · exact ⟨1, by omega, .inl ⟨t, hone, hidle, fun hno => absurd hr hno⟩⟩
    · exact ⟨1, by omega, .inl ⟨t, hone, hidle, fun _ => hdone⟩⟩
    · have hlen : s.sched.length = t.sched.length + 1 := congrArg List.length hs
      obtain ⟨n, hn, h⟩ := commandEnds_of_running hm' hrun'
      exact ⟨n + 1, by omega, h.of_host_step hstep hs⟩
termination_by s.sched.length

/-- Settles O35, from how a running command ends. -/
theorem runningCommandEnds : Obligations.RunningCommandEnds := by
  unfold Obligations.RunningCommandEnds
  intro s hm hrun
  obtain ⟨n, hn, h⟩ := commandEnds_of_running hm hrun
  exact ⟨n, hn, h.imp (fun ⟨t, ht, hidle, _⟩ => ⟨t, ht, hidle⟩) And.left⟩

/-- Settles O36, from how a running command ends: in the invariant, not by a fault. -/
theorem runningCommandCompletes : Obligations.RunningCommandCompletes := by
  unfold Obligations.RunningCommandCompletes
  intro s hm hinv hrun
  obtain ⟨n, hn, ⟨t, ht, hend⟩ | ⟨-, hno⟩⟩ := commandEnds_of_running hm hrun
  · exact ⟨n, t, hn, ht, hend⟩
  · exact absurd hinv hno

/-! ### What a pass leaves in each cell (R104, R105) -/

/-- A line given by the cell of each position holds the values that the model gathers from it. -/
theorem lineVals_map_range (m : Memory) (n : Nat) (p : Nat → Nat) :
    lineVals m ((List.range n).map p) = (Vector.ofFn fun j : Fin n => (m.read (p j)).getD 0).toList := by
  apply List.ext_getElem <;> simp [lineVals]

/-- Position `i` of a line of a pass ends as element `i` of the lifter, at the line's length, on what the line held. -/
theorem liftLines_read_map_range {f : Lifter} {lines : List (List Nat)} {w w' : Work} {n : Nat} {p : Nat → Nat}
    (h : liftLines f lines w = some w') (hn : ∀ line ∈ lines, line.Nodup) (hd : lines.Pairwise List.Disjoint)
    (hl : (List.range n).map p ∈ lines) {i : Nat} (hi : i < n) :
    w'.1.read (p i) = some ((f n (Vector.ofFn fun j => (w.1.read (p j.val)).getD 0))[i]'hi) := by
  have := liftLines_read_getElem h hn hd hl i (by simpa using hi)
  simpa [lineVals_map_range, applyLifter_eq] using this

/-- A pass on written active cells has a result, and leaves every other cell as it was. -/
theorem liftLines_of_active {f : Lifter} {g : Geom} {k : Nat} {lines : List (List Nat)} {m : Memory} {lb : List Val}
    (hcells : ∀ {e}, (∃ line ∈ lines, e ∈ line) ↔ ∃ r c, r < activeH g k ∧ c < activeW g k ∧ e = index g r c)
    (hw : ∀ r c, r < activeH g k → c < activeW g k → (m.read (index g r c)).isSome = true) :
    ∃ m' lb', liftLines f lines (m, lb) = some (m', lb') ∧
      ∀ e, (∀ r c, r < activeH g k → c < activeW g k → e ≠ index g r c) → m'.read e = m.read e := by
  obtain ⟨⟨m', lb'⟩, h⟩ := liftLines_of_written (f := f) (w := (m, lb)) fun line hl e he => by
    obtain ⟨r, c, hr, hc, rfl⟩ := hcells.mp ⟨line, hl, he⟩
    exact hw r c hr hc
  refine ⟨m', lb', h, fun e he => liftLines_read_of_not_mem h fun line hl hel => ?_⟩
  obtain ⟨r, c, hr, hc, rfl⟩ := hcells.mp ⟨line, hl, hel⟩
  exact he r c hr hc rfl

/-- Settles O38: the rows share no cell, and each is lifted whole. -/
theorem rowPassLiftsActiveRows : Obligations.RowPassLiftsActiveRows := by
  unfold Obligations.RowPassLiftsActiveRows
  intro f g k m lb hw
  obtain ⟨m', lb', h, hoff⟩ := liftLines_of_active (f := f) (lb := lb) mem_rowLines_cells hw
  exact ⟨m', lb', h, fun r c hr hc => liftLines_read_map_range h rowLines_nodup (rowLines_disjoint g k)
    (mem_rowLines.mpr ⟨r, hr, rfl⟩) hc, hoff⟩

/-- Settles O39: the columns share no cell, and each is lifted whole. -/
theorem colPassLiftsActiveColumns : Obligations.ColPassLiftsActiveColumns := by
  unfold Obligations.ColPassLiftsActiveColumns
  intro f g k m lb hw
  obtain ⟨m', lb', h, hoff⟩ := liftLines_of_active (f := f) (lb := lb) mem_colLines_cells hw
  exact ⟨m', lb', h, fun r c hr hc => liftLines_read_map_range (p := fun r => index g r c) h colLines_nodup
    (colLines_disjoint g k) (mem_colLines.mpr ⟨c, hc, rfl⟩) hr, hoff⟩

/-! ### The lines of a pass commute (R106) -/

/-- Lifting lines of a plane in canonical form keeps the form: a line with a result lies in the plane. -/
theorem liftLines_wfIn_of_wfIn {f : Lifter} {lines : List (List Nat)} {w w' : Work} {n : Nat}
    (h : liftLines f lines w = some w') (hm : w.1.wfIn n = true) : w'.1.wfIn n = true :=
  liftLines_wfIn h hm fun line hl e he => Memory.lt_of_read hm (liftLines_written h line hl e he)

/-- Lines that share no cell: each ends with the lifter's result on what it held at the start. -/
theorem liftLines_lineVals {f : Lifter} {lines : List (List Nat)} {w w' : Work} (h : liftLines f lines w = some w')
    (hn : ∀ line ∈ lines, line.Nodup) (hd : lines.Pairwise List.Disjoint) {line : List Nat} (hl : line ∈ lines) :
    lineVals w'.1 line = applyLifter f (lineVals w.1 line) := by
  apply List.ext_getElem
  · simp
  · intro i hi _
    rw [lineVals_length] at hi
    simp [lineVals, liftLines_read_getElem h hn hd hl i hi]

/-- Planes in canonical form with the same cells written, the same values on some lines and the same cells off them are
equal. -/
theorem Memory.ext_of_lineVals {n : Nat} {m m' : Memory} (lines : List (List Nat)) (hm : m.wfIn n = true)
    (hm' : m'.wfIn n = true) (hsome : ∀ e, (m.read e).isSome = (m'.read e).isSome)
    (hon : ∀ line ∈ lines, lineVals m line = lineVals m' line)
    (hoff : ∀ e, (∀ line ∈ lines, e ∉ line) → m.read e = m'.read e) : m = m' := by
  refine Memory.ext_of_read hm hm' fun e => ?_
  by_cases he : ∃ line ∈ lines, e ∈ line
  · obtain ⟨line, hl, he⟩ := he
    have hval := List.map_inj_left.mp (hon line hl) e he
    cases h : m.read e with
    | none => exact (Option.not_isSome_iff_eq_none.mp (by simp [← hsome e, h])).symm
    | some v =>
      obtain ⟨v', h'⟩ := Option.isSome_iff_exists.mp ((hsome e).symm.trans (by simp [h]))
      simpa [h, h'] using hval
  · exact hoff e fun line hl hel => he ⟨line, hl, hel⟩

/-- With an unwritten cell in some line there is no result. -/
theorem liftLines_eq_none {f : Lifter} {lines : List (List Nat)} {w : Work}
    (h : ¬ ∀ line ∈ lines, ∀ e ∈ line, (w.1.read e).isSome = true) : liftLines f lines w = none :=
  Option.eq_none_iff_forall_ne_some.mpr fun _ hx => h (liftLines_written hx)

/-- Lines that share no cell may be lifted in any order. -/
theorem liftLines_perm {f : Lifter} {lines lines' : List (List Nat)} {w : Work} {n : Nat} (hm : w.1.wfIn n = true)
    (hp : lines.Perm lines') (hn : ∀ line ∈ lines', line.Nodup) (hd : lines'.Pairwise List.Disjoint) :
    (liftLines f lines w).map Prod.fst = (liftLines f lines' w).map Prod.fst := by
  by_cases hw : ∀ line ∈ lines, ∀ e ∈ line, (w.1.read e).isSome = true
  · obtain ⟨x, hx⟩ := liftLines_of_written (f := f) hw
    obtain ⟨x', hx'⟩ := liftLines_of_written (f := f) fun line hl => hw line (hp.mem_iff.mpr hl)
    have hn' : ∀ line ∈ lines, line.Nodup := fun line hl => hn line (hp.mem_iff.mp hl)
    have hd' : lines.Pairwise List.Disjoint := (hp.pairwise_iff fun h => h.symm).mpr hd
    rw [hx, hx', Option.map_some, Option.map_some]
    refine congrArg some (Memory.ext_of_lineVals lines (liftLines_wfIn_of_wfIn hx hm) (liftLines_wfIn_of_wfIn hx' hm)
      (fun e => ?_) (fun line hl => ?_) fun e he => ?_)
    · rw [liftLines_isSome hx, liftLines_isSome hx']
    · rw [liftLines_lineVals hx hn' hd' hl, liftLines_lineVals hx' hn hd (hp.mem_iff.mp hl)]
    · rw [liftLines_read_of_not_mem hx he, liftLines_read_of_not_mem hx' fun line hl => he line (hp.mem_iff.mpr hl)]
  · rw [liftLines_eq_none hw, liftLines_eq_none fun h => hw fun line hl => h line (hp.mem_iff.mp hl)]

/-- Settles O40: the lines of a pass share no cell. -/
theorem lineOrderDoesNotMatter : Obligations.LineOrderDoesNotMatter := by
  unfold Obligations.LineOrderDoesNotMatter
  intro f g k n m lb lines hm
  exact ⟨fun hp => liftLines_perm hm hp rowLines_nodup (rowLines_disjoint g k),
    fun hp => liftLines_perm hm hp colLines_nodup (colLines_disjoint g k)⟩

/-! ### The lifter calls (R7, R109) -/

theorem rowLines_map_length (g : Geom) (k : Nat) :
    (rowLines g k).map List.length = List.replicate (g.h >>> k) (g.w >>> k) := by
  simp [rowLines, Function.comp_def, activeH, activeW]

theorem colLines_map_length (g : Geom) (k : Nat) :
    (colLines g k).map List.length = List.replicate (g.w >>> k) (g.h >>> k) := by
  simp [colLines, Function.comp_def, activeH, activeW]

@[simp] theorem rowLines_length (g : Geom) (k : Nat) : (rowLines g k).length = activeH g k := by simp [rowLines]

@[simp] theorem colLines_length (g : Geom) (k : Nat) : (colLines g k).length = activeW g k := by simp [colLines]

theorem decLines_length (g : Geom) (l : Nat) :
    (decLines g l).length = ((List.range l).map fun k => g.h >>> k + g.w >>> k).sum := by
  simp [decLines, List.length_flatMap, activeH, activeW]

theorem recLines_length (g : Geom) (l : Nat) : (recLines g l).length = (decLines g l).length := by
  rw [decLines_length, recLines, List.length_flatMap, List.map_reverse, List.sum_reverse]
  simp [activeH, activeW, Nat.add_comm]

/-- On the square plane every line of pass `k`, row or column, has the same length (R7). -/
theorem length_of_mem_pass {k : Nat} {line : List Nat}
    (h : line ∈ rowLines Config.geom k ∨ line ∈ colLines Config.geom k) : line.length = 512 >>> k := by
  rcases h with h | h
  · obtain ⟨r, -, rfl⟩ := mem_rowLines.mp h
    exact rowLine_length ..
  · obtain ⟨c, -, rfl⟩ := mem_colLines.mp h
    exact colLine_length ..

/-- Settles O43, by the lines of each pass. -/
theorem lifterCallCounts : Obligations.LifterCallCounts := by
  unfold Obligations.LifterCallCounts
  refine ⟨fun f g l w => ⟨decPlane_eq_liftLines f g l w, recPlane_eq_liftLines f g l w⟩,
    fun g l => ⟨?_, ?_, recLines_length g l, decLines_length g l⟩, decLines_length .., decLines_length ..,
    decLines_length .., fun line h => ?_⟩
  · simp [decLines, List.map_flatMap, rowLines_map_length, colLines_map_length]
  · simp [recLines, List.map_flatMap, rowLines_map_length, colLines_map_length]
  · have h : line ∈ opLines .decompose 3 ∨ line ∈ opLines .reconstruct 3 := List.mem_append.mp h
    obtain ⟨k, hk, hline⟩ := h.elim mem_opLines mem_opLines
    rw [length_of_mem_pass hline]
    interval_cases k <;> decide

/-! ### RECONSTRUCT undoes DECOMPOSE (R116) -/

/-- The lines of a command's passes have a length that the lifter is defined on (R100). -/
theorem legalLength_of_mem_pass {k : Nat} (hk : k < 3) {line : List Nat}
    (h : line ∈ rowLines Config.geom k ∨ line ∈ colLines Config.geom k) : legalLength line.length := by
  rw [length_of_mem_pass h]
  interval_cases k
  · exact ⟨by decide, 9, rfl⟩
  · exact ⟨by decide, 8, rfl⟩
  · exact ⟨by decide, 7, rfl⟩

section inverse
variable {fwd inv : Lifter} (hinv : ExactInverse fwd inv)
include hinv

theorem applyLifter_inverse {v : List Val} (hv : legalLength v.length) :
    applyLifter inv (applyLifter fwd v) = v := by
  have h := applyLifter_eq inv (fwd v.length ⟨v.toArray, by simp⟩)
  rw [hinv _ hv] at h
  simpa [applyLifter] using h

/-- The inverse lifter on lines of legal lengths that share no cell undoes the forward lifter on them. -/
theorem liftLines_inverse {lines : List (List Nat)} {w w' : Work} {n : Nat} (h : liftLines fwd lines w = some w')
    (hm : w.1.wfIn n = true) (hn : ∀ line ∈ lines, line.Nodup) (hd : lines.Pairwise List.Disjoint)
    (hlen : ∀ line ∈ lines, legalLength line.length) (lb : List Val) :
    ∃ lb', liftLines inv lines (w'.1, lb) = some (w.1, lb') := by
  obtain ⟨x, hx⟩ := liftLines_of_written (f := inv) (w := (w'.1, lb)) fun line hl e he =>
    (liftLines_isSome h e).trans (liftLines_written h line hl e he)
  have hm' := liftLines_wfIn_of_wfIn h hm
  have hback : x.1 = w.1 := by
    refine Memory.ext_of_lineVals lines (liftLines_wfIn_of_wfIn hx hm') hm
      (fun e => ?_) (fun line hl => ?_) fun e he => ?_
    · exact (liftLines_isSome hx e).trans (liftLines_isSome h e)
    · rw [liftLines_lineVals hx hn hd hl, liftLines_lineVals h hn hd hl,
        applyLifter_inverse hinv (by simpa using hlen line hl)]
    · exact (liftLines_read_of_not_mem hx he).trans (liftLines_read_of_not_mem h he)
  exact ⟨x.2, by rw [hx, ← hback]⟩

/-- REC of what DEC leaves is the plane DEC began with, whatever the line buffer holds. -/
theorem recPlane_decPlane {l : Nat} {w w' : Work} (hl : l ≤ 3) (hm : w.1.wf = true)
    (h : decPlane fwd Config.geom l w = some w') (lb : List Val) :
    ∃ lb', recPlane inv Config.geom l (w'.1, lb) = some (w.1, lb') := by
  induction l generalizing w' lb with
  | zero =>
    cases h
    exact ⟨lb, rfl⟩
  | succ l ih =>
    rw [(decomposeRunsPassesUpward ..).2] at h
    obtain ⟨x, hx, h⟩ := Option.bind_eq_some_iff.mp h
    obtain ⟨y, hy, hw'⟩ := Option.bind_eq_some_iff.mp h
    have hxm := liftLines_wfIn_of_wfIn (decPlane_eq_liftLines .. ▸ hx) hm
    have hym := liftLines_wfIn_of_wfIn hy hxm
    obtain ⟨lb₁, hcol⟩ := liftLines_inverse hinv hw' hym colLines_nodup (colLines_disjoint Config.geom l)
      (fun _ h => legalLength_of_mem_pass hl (.inr h)) lb
    obtain ⟨lb₂, hrow⟩ := liftLines_inverse hinv hy hxm rowLines_nodup (rowLines_disjoint Config.geom l)
      (fun _ h => legalLength_of_mem_pass hl (.inl h)) lb₁
    obtain ⟨lb₃, hrec⟩ := ih (Nat.le_of_succ_le hl) hx lb₂
    refine ⟨lb₃, ?_⟩
    rw [(reconstructRunsPassesDownward ..).2, colPass, hcol, Option.bind_some, rowPass, hrow, Option.bind_some, hrec]

end inverse

/-- Settles O44, by induction on the levels: each pass of REC undoes the pass of DEC at the same place. -/
theorem reconstructUndoesDecompose : Obligations.ReconstructUndoesDecompose := by
  unfold Obligations.ReconstructUndoesDecompose
  intro fwd inv hinv l m lb hl hm hw
  obtain ⟨⟨m', lb'⟩, h⟩ := ((transformHasResult fwd l m lb).2 hw).1
  obtain ⟨lb'', h'⟩ := recPlane_decPlane hinv hl hm h lb'
  exact ⟨m', lb', lb'', h, h'⟩

end Sys2Proof.Machine
end

section
/-! SUPPORT. The host port statements (41_host_port.md): the read of CMD, the plane accesses by the state of the block,
and what a write of a cell does to the bytes of the plane window. -/

namespace Sys2Proof.Machine

/-! ### The read of CMD (R143) -/

/-- Settles O11: CMD reads as the word 0, whose lanes are zero. -/
theorem cmdReadsZero : Obligations.CmdReadsZero := by
  unfold Obligations.CmdReadsZero
  intro s
  have hzero : lanes 4 (0 : Word) = [0, 0, 0, 0] := by decide
  exact congrArg Host.Outcome.next (okayWord_of_lanes hzero s)

/-! ### The plane accesses (R146, R147, R148) -/

section access
variable {s : State} {cell : BitVec 19} (hcell : planeFieldOk cell = true)
include hcell

theorem execPlaneRd_of_busy (hb : s.status.busy = true) :
    execPlaneRd cell s = .next (s.hold (planeReadTxn cell)) := by
  simp [execPlaneRd, hcell, hb]

theorem execPlaneRd_of_written {v : Val} (hb : s.status.busy = false) (hv : s.plane.read (cellIndex cell) = some v) :
    execPlaneRd cell s = .next (s.respond (.okay (lanes 8 v))) := by
  simp [execPlaneRd, hcell, hb, hv]

theorem execPlaneWr_of_busy (d : Val) (hb : s.status.busy = true) :
    execPlaneWr cell d s = .next (s.hold (planeWriteTxn cell d)) := by
  simp [execPlaneWr, hcell, hb]

theorem execPlaneWr_of_idle (d : Val) (hb : s.status.busy = false) :
    execPlaneWr cell d s =
      .next { s with plane := s.plane.write (cellIndex cell) d, responses := s.responses ++ [.okay []] } := by
  simp [execPlaneWr, hcell, hb, State.respond]

end access

/-- The offset of a plane row's field W is eight times W, as a word. -/
theorem planeAddr_eq_ofNat (cell : BitVec 19) : planeAddr cell = BitVec.ofNat 32 (8 * cell.toNat) := by
  rw [← planeAddr_toNat, BitVec.ofNat_toNat, BitVec.setWidth_eq]

/-- Settles O21: the three answers of PLANE_RD, by BUSY and by whether the cell is written. -/
theorem planeReadReturnsCell : Obligations.PlaneReadReturnsCell := by
  unfold Obligations.PlaneReadReturnsCell
  intro s cell h1 h2
  have hcell : planeFieldOk cell = true := (planeFieldOk_iff cell).mpr ⟨h1, h2⟩
  refine ⟨fun hb => ?_, fun hb hnone => ?_, fun v hb hv => ?_⟩
  · rw [← planeAddr_eq_ofNat]
    exact execPlaneRd_of_busy hcell hb
  · exact (execPlaneRd_fault_iff cell s).mpr ⟨hcell, hb, hnone⟩
  · exact execPlaneRd_of_written hcell hb hv

/-! ### The bytes of the plane window (R52, R53) -/

/-- A byte of the window is a lane of the cell that its offset's field W names. -/
theorem Memory.byteAt_of_inPlane (m : Memory) {a : Word} (ha : inPlane a = true) :
    m.byteAt a = (m.read (cellIndex (planeField a))).map fun v => v.extractLsb' (8 * (a.toNat % 8)) 8 := by
  have hlt := ((inPlane_iff a).mp ha).2
  rw [Memory.byteAt, if_pos ha, cellIndex_planeField hlt, Nat.shiftRight_eq_div_pow]
  rfl

theorem Memory.byteAt_of_not_inPlane (m : Memory) {a : Word} (ha : ¬ inPlane a = true) : m.byteAt a = none := if_neg ha

/-- The bytes of a cell just written are the lanes of the value. -/
theorem Memory.byteAt_write_same (m : Memory) {a : Word} (d : Val) (ha : inPlane a = true) :
    (m.write (cellIndex (planeField a)) d).byteAt a = some (d.extractLsb' (8 * (a.toNat % 8)) 8) := by
  rw [Memory.byteAt_of_inPlane _ ha, Memory.read_write_same, Option.map_some]

/-- A write of a cell leaves the bytes of every other cell, and what lies outside the window. -/
theorem Memory.byteAt_write_other (m : Memory) {a : Word} {e : Nat} (d : Val)
    (h : inPlane a = true → cellIndex (planeField a) ≠ e) : (m.write e d).byteAt a = m.byteAt a := by
  by_cases ha : inPlane a = true
  · rw [Memory.byteAt_of_inPlane _ ha, Memory.byteAt_of_inPlane _ ha, Memory.read_write_other m d (h ha)]
  · rw [Memory.byteAt_of_not_inPlane _ ha, Memory.byteAt_of_not_inPlane _ ha]

/-- The byte `j` of a cell lies at the cell's offset plus `j`. -/
theorem planeAddr_add_toNat (cell : BitVec 19) {j : Nat} (hj : j < 8) :
    (planeAddr cell + BitVec.ofNat 32 j).toNat = 8 * cell.toNat + j := by
  have hlt := cell.isLt
  rw [BitVec.toNat_add, planeAddr_toNat, BitVec.toNat_ofNat]
  omega

/-- The eight offsets of a cell of the window lie in the window and name the cell. -/
theorem planeField_planeAddr_add {cell : BitVec 19} (hcell : planeFieldOk cell = true) {j : Nat} (hj : j < 8) :
    inPlane (planeAddr cell + BitVec.ofNat 32 j) = true ∧
      planeField (planeAddr cell + BitVec.ofNat 32 j) = cell := by
  obtain ⟨h1, h2⟩ := (planeFieldOk_iff cell).mp hcell
  have haddr := planeAddr_add_toNat cell hj
  constructor
  · rw [inPlane_iff]
    omega
  · apply BitVec.eq_of_toNat_eq
    rw [planeField_toNat (by omega)]
    omega

/-- The linear index of R52, written out. -/
theorem cellIndex_eq (cell : BitVec 19) : cellIndex cell = cell.toNat - 0x20000 := rfl

/-- An offset of the window outside a cell's eight names another cell. -/
theorem cellIndex_ne_of_outside {cell : BitVec 19} (hcell : planeFieldOk cell = true) {a : Word}
    (hout : ¬ ((planeAddr cell).toNat ≤ a.toNat ∧ a.toNat < (planeAddr cell).toNat + 8)) (ha : inPlane a = true) :
    cellIndex (planeField a) ≠ cellIndex cell := by
  obtain ⟨h1, -⟩ := (planeFieldOk_iff cell).mp hcell
  obtain ⟨ha1, ha2⟩ := (inPlane_iff a).mp ha
  rw [planeAddr_toNat] at hout
  rw [cellIndex_eq, cellIndex_eq, planeField_toNat ha2]
  omega

/-- Settles O22, by the laws of reading after a write, of cells and of bytes. -/
theorem planeWriteStoresCell : Obligations.PlaneWriteStoresCell := by
  unfold Obligations.PlaneWriteStoresCell
  intro s cell d h1 h2
  have hcell : planeFieldOk cell = true := (planeFieldOk_iff cell).mpr ⟨h1, h2⟩
  rw [← cellIndex_eq]
  refine ⟨execPlaneWr_of_busy hcell d, fun hb => ⟨s.plane.write (cellIndex cell) d, execPlaneWr_of_idle hcell d hb,
    Memory.read_write_same .., fun e he => Memory.read_write_other s.plane d he, fun j hj => ?_, fun a hout => ?_⟩⟩
  · obtain ⟨ha, hfield⟩ := planeField_planeAddr_add hcell hj
    have hbyte := Memory.byteAt_write_same s.plane d ha
    have hlane : (planeAddr cell + BitVec.ofNat 32 j).toNat % 8 = j := by
      rw [planeAddr_add_toNat cell hj]
      omega
    rwa [hfield, hlane] at hbyte
  · exact Memory.byteAt_write_other s.plane d (cellIndex_ne_of_outside hcell hout)

end Sys2Proof.Machine
end

section
/-! SUPPORT. The exception statements (60_exceptions.md): the bus error, the fault mark, the STATUS write that races
completion, and the interrupt line. -/

namespace Sys2Proof.Machine

/-! ### The bus error (R86, R172, R201) -/

/-- The port answers a transaction that matches no row `ERR`, on the state with it taken (R172). -/
theorem step_of_takeTxn_error {s u : State} {tx : Txn} {e : DecodeError} (hm : s.mark = none)
    (ha : nextAgent s = some .host) (htake : takeTxn s.tick = some (tx, u)) (hdec : decodeTxn tx = .error e) :
    step s = .next (u.respond .err) := by
  rw [step_of_nextAgent hm ha]
  simp only [agentStep, hostStep, htake, serve, hdec, State.busError_eq]

/-- Between `s` and `t` nothing was answered, or one `OKAY`. -/
def AnswersOkayOrNothing (s t : State) : Prop :=
  t.responses = s.responses ∨ ∃ data, t.responses = s.responses ++ [.okay data]

theorem AnswersOkayOrNothing.not_err {s t : State} (h : AnswersOkayOrNothing s t) :
    t.responses ≠ s.responses ++ [.err] := by
  rcases h with h | ⟨data, h⟩ <;> simp [h]

theorem startTransform_answersOkay {op : Op} {levels : BitVec 4} {s t : State}
    (h : startTransform op levels s = .next t) : AnswersOkayOrNothing s t := by
  rcases startTransform_cases h with ⟨-, rfl⟩ | ⟨-, -, rfl⟩ | ⟨-, -, -, rfl⟩
  all_goals exact .inr ⟨_, rfl⟩

theorem execWrCmd_answersOkay {w : Word} {s t : State} (h : execWrCmd w s = .next t) : AnswersOkayOrNothing s t := by
  rcases execWrCmd_cases h with rfl | ⟨_, -, rfl⟩ | ⟨_, _, -, -, -, rfl⟩
  all_goals exact .inr ⟨_, rfl⟩

theorem execPlaneRd_answersOkay {cell : BitVec 19} {s t : State} (hcell : planeFieldOk cell = true)
    (h : execPlaneRd cell s = .next t) : AnswersOkayOrNothing s t := by
  rcases execPlaneRd_cases h with ⟨hout, -⟩ | ⟨-, -, rfl⟩ | ⟨_, -, -, -, rfl⟩
  · simp [hcell] at hout
  · exact .inl rfl
  · exact .inr ⟨_, rfl⟩

theorem execPlaneWr_answersOkay {cell : BitVec 19} {d : Val} {s t : State} (hcell : planeFieldOk cell = true)
    (h : execPlaneWr cell d s = .next t) : AnswersOkayOrNothing s t := by
  rcases execPlaneWr_cases h with ⟨hout, -⟩ | ⟨-, -, rfl⟩ | ⟨-, -, rfl⟩
  · simp [hcell] at hout
  · exact .inl rfl
  · exact .inr ⟨_, rfl⟩

/-- A well-formed instruction answers no `ERR`: its one source in exec is a field W outside the window (log 13). -/
theorem exec_answersOkay {i : Instr} {s t : State} (hwf : i.wf = true) (h : exec i s = .next t) :
    AnswersOkayOrNothing s t := by
  cases i with
  | decompose _ | reconstruct _ => exact startTransform_answersOkay h
  | wrCmd _ => exact execWrCmd_answersOkay h
  | planeRd _ => exact execPlaneRd_answersOkay hwf h
  | planeWr _ _ => exact execPlaneWr_answersOkay hwf h
  | nop _ | rdId | wrId _ | rdInfo | wrInfo _ | rdCmd | rdStatus | wrStatus _ | rdIrqEn | wrIrqEn _ =>
    cases h
    exact .inr ⟨_, rfl⟩

/-- Settles O26: the port answers the bus error, what decodes is well formed and so never errs, and the reset event
answers what is held. -/
theorem busErrorChangesNothing : Obligations.BusErrorChangesNothing := by
  unfold Obligations.BusErrorChangesNothing
  refine ⟨fun s t rest sch e hm hh hq hs hdec => ?_, fun t i s u hdec hexec => ?_, fun s t hh => ⟨?_, rfl⟩⟩
  · have ha := nextAgent_of_sched hs (enabled_host.mpr (.inr ⟨hh, t, rest, hq⟩))
    rw [step_of_takeTxn_error hm ha (takeTxn_of_queue hh hq) hdec, State.tick, hs, List.tail_cons]
    rfl
  · obtain ⟨hwf, -⟩ := encode_of_decodeTxn hdec
    exact (exec_answersOkay hwf hexec).not_err
  · rw [State.resetEvent_responses, hh]

/-! ### The fault mark (R175, R202) -/

theorem recordStep_of_fault {s : State} {f : Fault} (h : step s = .fault f) :
    recordStep s = { s with mark := some f } := by simp [recordStep, h]

/-- A recorded step leaves a marked state as it is: it faults again with the fault of its mark (log 9). -/
theorem recordStep_of_mark {s : State} {f : Fault} (h : s.mark = some f) : recordStep s = s := by
  rw [recordStep_of_fault (step_of_mark h), ← h]

theorem recordRun_of_mark {s : State} {f : Fault} (h : s.mark = some f) (n : Nat) : recordRun n s = s := by
  induction n with
  | zero => rfl
  | succ n ih => rw [recordRun, recordStep_of_mark h, ih]

/-- Settles O52: a marked state is a fixed point of the recorded run, and the reset event copies the mark. -/
theorem faultMarkStays : Obligations.FaultMarkStays := by
  unfold Obligations.FaultMarkStays
  refine ⟨fun s f h => ?_, fun s f n h => ⟨step_of_mark h, ?_, ?_⟩⟩
  · rw [recordStep_of_fault h]
  · rw [recordRun_of_mark h n, h]
  · rw [State.resetEvent_mark, h]

/-! ### The STATUS write that races completion (R31, R113, R174) -/

/-- The host's step on a queued write of 2 to STATUS is the acknowledge of DONE (R31, R179). -/
theorem step_of_queued_acknowledge {s : State} {rest : List Txn} {sch : List Agent} (hm : s.mark = none)
    (hh : s.held = none) (hq : s.queue = .write 0x00C [2, 0, 0, 0] :: rest) (hs : s.sched = .host :: sch) :
    step s = .next ((State.acknowledge 2 { s with queue := rest, sched := sch }).respond (.okay [])) :=
  have hdec : decodeTxn (.write 0x00C [2, 0, 0, 0]) = .ok (.wrStatus 2) := by decide
  stepRunsDecodedTransaction.1 s _ rest sch _ hm hh hq hs hdec

/-- Completion of a command of no levels leaves the plane and the line buffer as they are (D5). -/
theorem step_of_completion_zero {s : State} {sch : List Agent} {op : Op} (hm : s.mark = none)
    (hs : s.sched = .sequencer :: sch) (hseq : s.seq = .run op 0) :
    step s = .next (s.tick.finish (s.plane, s.lb)) :=
  step_of_completion hm hs hseq (by cases op <;> rfl)

/-- Settles O31: one order completes the acknowledged flags, the other acknowledges the completed ones. -/
theorem statusWriteRacesCompletion : Obligations.StatusWriteRacesCompletion := by
  unfold Obligations.StatusWriteRacesCompletion
  intro s hm hh hseq hst hq
  constructor
  · have hack := step_of_queued_acknowledge (s := { s with sched := [.host, .sequencer] }) hm hh hq rfl
    have hdone := step_of_completion_zero (s := State.respond (.okay []) (State.acknowledge 2
      { s with queue := [], sched := [.sequencer] })) hm rfl hseq
    refine ⟨_, (run_succ_of_next 1 hack).trans (run_succ_of_next 0 hdone), ?_⟩
    exact congrArg (fun st : Status => (st.writeClear 2).completed) hst
  · have hdone := step_of_completion_zero (s := { s with sched := [.sequencer, .host] }) hm rfl hseq
    have hack := step_of_queued_acknowledge (s := State.finish (s.plane, s.lb) { s with sched := [.host] }) hm hh hq rfl
    refine ⟨_, (run_succ_of_next 1 hdone).trans (run_succ_of_next 0 hack), ?_⟩
    exact congrArg (fun st : Status => st.completed.writeClear 2) hst

/-! ### The interrupt line (R176) -/

theorem State.irq_iff (s : State) : s.irq = true ↔
    (s.status.done = true ∧ s.irqEn.doneIe = true) ∨ (s.status.err = true ∧ s.irqEn.errIe = true) := by
  simp [State.irq]

/-- With both flags 0 the line is low, whatever is enabled. -/
theorem State.irq_of_flags_clear {s : State} (hd : s.status.done = false) (he : s.status.err = false) :
    s.irq = false := by
  simp [State.irq, hd, he]

/-- Settles O58: the line is a function of the flags, and each of the two writes leaves the flags that fix it. -/
theorem irqFollowsFlags : Obligations.IrqFollowsFlags := by
  unfold Obligations.IrqFollowsFlags
  refine ⟨State.irq_iff, fun s hd => ?_, fun s => ?_⟩
  · exact ⟨_, rfl, (State.irq_iff _).mpr (.inl ⟨hd, rfl⟩)⟩
  · exact ⟨_, rfl, State.irq_of_flags_clear rfl rfl⟩

end Sys2Proof.Machine
end
